-- ==== Sys2Proof/Word.lean ====
section
/-! DEFINITION. The words of the machine: bytes, 16-bit words, key sets and register numbers
(00_scope.md R6, R7, R8). -/

namespace Sys2Proof

/-- A byte: a memory cell, a general register, a timer (R6). -/
abbrev Byte := BitVec 8

/-- A 16-bit word: `I`, `PC`, a call-stack entry, an opcode (R6). -/
abbrev Word := BitVec 16

/-- A set of the keys 0 to 15: bit `k` set means key `k` is in the set (10_state.md R38). -/
abbrev Keys := BitVec 16

/-- The number of a general register, 0 to 15 (10_state.md R21, 30_encoding.md R94). -/
abbrev RegIdx := Fin 16

/-- The flag register `VF` is general register 15 (10_state.md R22). -/
abbrev vf : RegIdx := 15

end Sys2Proof
end

