-- ==== Sys2Proof/Syntax.lean ====
section
/-! DEFINITION. The instructions: one constructor per row of spec/opcode_table.json (30_encoding.md R97). -/

namespace Sys2Proof

/-- The 34 operations. `x`, `y` are the register fields, `nn` the immediate byte, `nnn` the immediate address,
`n` the row count of DXYN (30_encoding.md R91, R93, R94). -/
inductive Instr where
  /-- 00E0 `CLS` (R250). -/
  | cls
  /-- 00EE `RET` (R140). -/
  | ret
  /-- 1NNN `JP NNN` (R141). -/
  | jp (nnn : BitVec 12)
  /-- 2NNN `CALL NNN` (R142). -/
  | call (nnn : BitVec 12)
  /-- 3XNN `SE VX, NN` (R160). -/
  | seImm (x : RegIdx) (nn : Byte)
  /-- 4XNN `SNE VX, NN` (R161). -/
  | sneImm (x : RegIdx) (nn : Byte)
  /-- 5XY0 `SE VX, VY` (R162). -/
  | seReg (x y : RegIdx)
  /-- 6XNN `LD VX, NN` (R180). -/
  | ldImm (x : RegIdx) (nn : Byte)
  /-- 7XNN `ADD VX, NN` (R181). -/
  | addImm (x : RegIdx) (nn : Byte)
  /-- 8XY0 `LD VX, VY` (R182). -/
  | ldReg (x y : RegIdx)
  /-- 8XY1 `OR VX, VY` (R183). -/
  | or (x y : RegIdx)
  /-- 8XY2 `AND VX, VY` (R184). -/
  | and (x y : RegIdx)
  /-- 8XY3 `XOR VX, VY` (R185). -/
  | xor (x y : RegIdx)
  /-- 8XY4 `ADD VX, VY` (R186). -/
  | addReg (x y : RegIdx)
  /-- 8XY5 `SUB VX, VY` (R187). -/
  | sub (x y : RegIdx)
  /-- 8XY6 `SHR VX, VY` (R188). -/
  | shr (x y : RegIdx)
  /-- 8XY7 `SUBN VX, VY` (R189). -/
  | subn (x y : RegIdx)
  /-- 8XYE `SHL VX, VY` (R190). -/
  | shl (x y : RegIdx)
  /-- 9XY0 `SNE VX, VY` (R163). -/
  | sneReg (x y : RegIdx)
  /-- ANNN `LD I, NNN` (R210). -/
  | ldI (nnn : BitVec 12)
  /-- BNNN `JP V0, NNN` (R143). -/
  | jpV0 (nnn : BitVec 12)
  /-- CXNN `RND VX, NN` (R191). -/
  | rnd (x : RegIdx) (nn : Byte)
  /-- DXYN `DRW VX, VY, N` (R251). -/
  | drw (x y : RegIdx) (n : Nat)
  /-- EX9E `SKP VX` (R164). -/
  | skp (x : RegIdx)
  /-- EXA1 `SKNP VX` (R165). -/
  | sknp (x : RegIdx)
  /-- FX07 `LD VX, DT` (R230). -/
  | ldVxDt (x : RegIdx)
  /-- FX0A `LD VX, K` (R233). -/
  | ldVxK (x : RegIdx)
  /-- FX15 `LD DT, VX` (R231). -/
  | ldDtVx (x : RegIdx)
  /-- FX18 `LD ST, VX` (R232). -/
  | ldStVx (x : RegIdx)
  /-- FX1E `ADD I, VX` (R211). -/
  | addI (x : RegIdx)
  /-- FX29 `LD F, VX` (R212). -/
  | ldF (x : RegIdx)
  /-- FX33 `LD B, VX` (R213). -/
  | ldB (x : RegIdx)
  /-- FX55 `LD [I], VX` (R214). -/
  | ldMemVx (x : RegIdx)
  /-- FX65 `LD VX, [I]` (R215). -/
  | ldVxMem (x : RegIdx)
deriving DecidableEq, Repr

end Sys2Proof
end

