-- ==== Sys2Proof/WellFormed.lean ====
section
/-! DEFINITION. Which terms of `Instr` are instructions of the hardware. Register numbers, immediates and addresses
have the exact width of their field in their type; the row count of DXYN is a count, so its bound is checked here. -/

namespace Sys2Proof

/-- `N` is a 4-bit value, 0 to 15 (30_encoding.md R93); every other operand is within its field by its type. -/
abbrev Instr.WellFormed : Instr → Prop
  | .drw _ _ n => n ≤ 15
  | .cls | .ret | .jp _ | .call _ | .seImm _ _ | .sneImm _ _ | .seReg _ _ | .ldImm _ _ | .addImm _ _
  | .ldReg _ _ | .or _ _ | .and _ _ | .xor _ _ | .addReg _ _ | .sub _ _ | .shr _ _ | .subn _ _ | .shl _ _
  | .sneReg _ _ | .ldI _ | .jpV0 _ | .rnd _ _ | .skp _ | .sknp _ | .ldVxDt _ | .ldVxK _ | .ldDtVx _
  | .ldStVx _ | .addI _ | .ldF _ | .ldB _ | .ldMemVx _ | .ldVxMem _ => True

end Sys2Proof
end

