-- ==== Sys2Proof/Decode.lean ====
section
/-! DEFINITION. The decoder, total on every word and every byte list (30_encoding.md R90, R91, R95, R96), and the
encoder, written from the formats and the match column of R92 and R97. -/

namespace Sys2Proof

/-- Why bytes are no instruction. -/
inductive DecodeReject where
  /-- No row of R97 matches the word (R98): `Unsupported` of R96. Safe: the step raises UnsupportedOpcode. -/
  | unsupported (op : Word)
  /-- Fewer than the two bytes that every instruction has (R90). Safe: no step decodes such a list. -/
  | tooShort
deriving DecidableEq, Repr

/-- The class nibble `op[15:12]` (R91). -/
def opClass (op : Word) : BitVec 4 := op.extractLsb' 12 4

/-- `X = op[11:8]` (R91). -/
def opX (op : Word) : RegIdx := (op.extractLsb' 8 4).toFin

/-- `Y = op[7:4]` (R91). -/
def opY (op : Word) : RegIdx := (op.extractLsb' 4 4).toFin

/-- `N = op[3:0]` (R91). -/
def opN (op : Word) : BitVec 4 := op.extractLsb' 0 4

/-- `NN = op[7:0]` (R91). -/
def opNN (op : Word) : Byte := op.extractLsb' 0 8

/-- `NNN = op[11:0]` (R91). -/
def opNNN (op : Word) : BitVec 12 := op.extractLsb' 0 12

/-- Class 0 is dispatched on the whole word (R96). -/
def decodeClass0 (op : Word) : Except DecodeReject Instr :=
  if op = 0x00E0#16 then .ok .cls
  else if op = 0x00EE#16 then .ok .ret
  else .error (.unsupported op)

/-- Class 8 is dispatched on `N` (R96). -/
def decodeClass8 (op : Word) : Except DecodeReject Instr :=
  match opN op with
  | 0x0#4 => .ok (.ldReg (opX op) (opY op))
  | 0x1#4 => .ok (.or (opX op) (opY op))
  | 0x2#4 => .ok (.and (opX op) (opY op))
  | 0x3#4 => .ok (.xor (opX op) (opY op))
  | 0x4#4 => .ok (.addReg (opX op) (opY op))
  | 0x5#4 => .ok (.sub (opX op) (opY op))
  | 0x6#4 => .ok (.shr (opX op) (opY op))
  | 0x7#4 => .ok (.subn (opX op) (opY op))
  | 0xE#4 => .ok (.shl (opX op) (opY op))
  | _ => .error (.unsupported op)

/-- Class E is dispatched on `NN` (R96). -/
def decodeClassE (op : Word) : Except DecodeReject Instr :=
  match opNN op with
  | 0x9E#8 => .ok (.skp (opX op))
  | 0xA1#8 => .ok (.sknp (opX op))
  | _ => .error (.unsupported op)

/-- Class F is dispatched on `NN` (R96). -/
def decodeClassF (op : Word) : Except DecodeReject Instr :=
  match opNN op with
  | 0x07#8 => .ok (.ldVxDt (opX op))
  | 0x0A#8 => .ok (.ldVxK (opX op))
  | 0x15#8 => .ok (.ldDtVx (opX op))
  | 0x18#8 => .ok (.ldStVx (opX op))
  | 0x1E#8 => .ok (.addI (opX op))
  | 0x29#8 => .ok (.ldF (opX op))
  | 0x33#8 => .ok (.ldB (opX op))
  | 0x55#8 => .ok (.ldMemVx (opX op))
  | 0x65#8 => .ok (.ldVxMem (opX op))
  | _ => .error (.unsupported op)

/-- The decode function of R96: it reads nothing but the word (40_execute_cycle.md R124). -/
def decode (op : Word) : Except DecodeReject Instr :=
  match opClass op with
  | 0x0#4 => decodeClass0 op
  | 0x1#4 => .ok (.jp (opNNN op))
  | 0x2#4 => .ok (.call (opNNN op))
  | 0x3#4 => .ok (.seImm (opX op) (opNN op))
  | 0x4#4 => .ok (.sneImm (opX op) (opNN op))
  | 0x5#4 => if opN op = 0#4 then .ok (.seReg (opX op) (opY op)) else .error (.unsupported op)
  | 0x6#4 => .ok (.ldImm (opX op) (opNN op))
  | 0x7#4 => .ok (.addImm (opX op) (opNN op))
  | 0x8#4 => decodeClass8 op
  | 0x9#4 => if opN op = 0#4 then .ok (.sneReg (opX op) (opY op)) else .error (.unsupported op)
  | 0xA#4 => .ok (.ldI (opNNN op))
  | 0xB#4 => .ok (.jpV0 (opNNN op))
  | 0xC#4 => .ok (.rnd (opX op) (opNN op))
  | 0xD#4 => .ok (.drw (opX op) (opY op) (opN op).toNat)
  | 0xE#4 => decodeClassE op
  | _ => decodeClassF op

/-- The 16-bit opcode of two consecutive bytes, the first one high (20_memory.md R61). -/
def bigEndian (hi lo : Byte) : Word := hi ++ lo

/-- Decoding consumes exactly two bytes (R90) and answers the rest of the list. -/
def decodeBytes : List Byte → Except DecodeReject (Instr × List Byte)
  | hi :: lo :: rest => (decode (bigEndian hi lo)).map (·, rest)
  | _ => .error .tooShort

/-- Format `NNN` (R92). -/
def encNNN (c : BitVec 4) (nnn : BitVec 12) : Word := c ++ nnn

/-- Format `XNN`, and `Xss` with a fixed low byte (R92). -/
def encXNN (c : BitVec 4) (x : RegIdx) (nn : Byte) : Word := encNNN c (BitVec.ofFin (w := 4) x ++ nn)

/-- Format `XYN`, and `XYs` with a fixed low nibble (R92). -/
def encXYN (c : BitVec 4) (x y : RegIdx) (n : BitVec 4) : Word := encXNN c x (BitVec.ofFin (w := 4) y ++ n)

/-- The word of an instruction (R97; R102: one instruction, one opcode). A row count above 15 is no field value
(`Instr.WellFormed` refuses it) and keeps its low four bits here. -/
def encode : Instr → Word
  | .cls => 0x00E0#16
  | .ret => 0x00EE#16
  | .jp nnn => encNNN 0x1#4 nnn
  | .call nnn => encNNN 0x2#4 nnn
  | .seImm x nn => encXNN 0x3#4 x nn
  | .sneImm x nn => encXNN 0x4#4 x nn
  | .seReg x y => encXYN 0x5#4 x y 0x0#4
  | .ldImm x nn => encXNN 0x6#4 x nn
  | .addImm x nn => encXNN 0x7#4 x nn
  | .ldReg x y => encXYN 0x8#4 x y 0x0#4
  | .or x y => encXYN 0x8#4 x y 0x1#4
  | .and x y => encXYN 0x8#4 x y 0x2#4
  | .xor x y => encXYN 0x8#4 x y 0x3#4
  | .addReg x y => encXYN 0x8#4 x y 0x4#4
  | .sub x y => encXYN 0x8#4 x y 0x5#4
  | .shr x y => encXYN 0x8#4 x y 0x6#4
  | .subn x y => encXYN 0x8#4 x y 0x7#4
  | .shl x y => encXYN 0x8#4 x y 0xE#4
  | .sneReg x y => encXYN 0x9#4 x y 0x0#4
  | .ldI nnn => encNNN 0xA#4 nnn
  | .jpV0 nnn => encNNN 0xB#4 nnn
  | .rnd x nn => encXNN 0xC#4 x nn
  | .drw x y n => encXYN 0xD#4 x y (BitVec.ofNat 4 n)
  | .skp x => encXNN 0xE#4 x 0x9E#8
  | .sknp x => encXNN 0xE#4 x 0xA1#8
  | .ldVxDt x => encXNN 0xF#4 x 0x07#8
  | .ldVxK x => encXNN 0xF#4 x 0x0A#8
  | .ldDtVx x => encXNN 0xF#4 x 0x15#8
  | .ldStVx x => encXNN 0xF#4 x 0x18#8
  | .addI x => encXNN 0xF#4 x 0x1E#8
  | .ldF x => encXNN 0xF#4 x 0x29#8
  | .ldB x => encXNN 0xF#4 x 0x33#8
  | .ldMemVx x => encXNN 0xF#4 x 0x55#8
  | .ldVxMem x => encXNN 0xF#4 x 0x65#8

/-- The high byte of a word, the one at the lower address (20_memory.md R61). -/
def highByte (op : Word) : Byte := op.extractLsb' 8 8

/-- The low byte of a word, the one at the higher address (20_memory.md R61). -/
def lowByte (op : Word) : Byte := op.extractLsb' 0 8

/-- The first word of the opcode table's numbering: `w` cut to `nbits` bits, the bits above them zero. -/
def tableWord (nbits w : Nat) : Word := BitVec.ofNat 16 (w % 2 ^ nbits)

/-- What the decoder reads from an opcode-table word, laid out in memory order: high byte first (R61, R90). -/
def decodeTableWord (nbits w : Nat) : Option Instr :=
  match decodeBytes [highByte (tableWord nbits w), lowByte (tableWord nbits w)] with
  | .ok (i, _) => some i
  | .error _ => none

end Sys2Proof
end

