-- ==== Sys2Proof/Config.lean ====
section
/-! DEFINITION. The configuration `P` fixed at construction (00_scope.md R5), the events of the environment
(10_state.md R38, 60_exceptions.md R283), and the constants the spec leaves open, which have no body.
The default configuration is in Machine/Defaults.lean. -/

namespace Sys2Proof

/-- `P.keywait_edge`: which key edge completes FX0A (00_scope.md R5, 45_timers_and_keywait.md R234). -/
inductive KeyEdge where
  | release
  | press
deriving DecidableEq, Repr, Inhabited

/-- A positive rate in Hz, `(num + 1) / (den + 1)`, positive by its form. -/
structure Rate where
  num : Nat
  den : Nat
deriving DecidableEq, Repr, Inhabited

/-- The configuration `P` of one core (00_scope.md R5). No instruction reads or writes it as data. -/
structure Config where
  /-- `P.shift_copy_vy`: 8XY6 and 8XYE shift `V[Y]` instead of `V[X]` (R188, R190). -/
  shiftCopyVy : Bool
  /-- `P.keywait_edge` (R234). -/
  keywaitEdge : KeyEdge
  /-- `P.fx1e_sets_vf`: FX1E writes its overflow flag to `VF` (R211). -/
  fx1eSetsVf : Bool
  /-- `P.stack_depth`: how many return addresses the call stack holds, at least 1 (R31). -/
  stackDepth : Nat
  /-- `P.font`: the 80 bytes of the 16 glyphs (10_state.md R37). -/
  font : Vector Byte 80
  /-- `P.rom`: the program image, at most 3584 bytes (70_reset_and_hazards.md R302). -/
  rom : List Byte
  /-- `P.cycle_hz`, the CPU cycle rate: an OPEN parameter that no rule reads (R5, 70_reset_and_hazards.md R307). -/
  cycleHz : Rate
  /-- `P.frame_hz`, the display refresh rate: an OPEN parameter that no rule reads (R5, R307). -/
  frameHz : Rate
deriving DecidableEq, Repr, Inhabited

/-- The bytes from the load address 0x200 to the end of memory (R302). -/
abbrev romCapacity : Nat := 3584

/-- The bounds R5 and R302 put on a configuration. -/
abbrev Config.wf (p : Config) : Prop := 1 ≤ p.stackDepth ∧ p.rom.length ≤ romCapacity

/-- One event of the environment (10_state.md R38). -/
inductive Event where
  /-- `Step(K, R)`: one fetch-decode-execute with the sampled key set and random byte. -/
  | step (keys : Keys) (random : Byte)
  /-- `Tick`: one 60 Hz decrement of the timers (60_exceptions.md R276). -/
  | tick
  /-- `Reset(P)`: construction of the core with configuration `P` (70_reset_and_hazards.md R300). -/
  | reset (p : Config)
deriving DecidableEq, Repr, Inhabited

/-- The environment's free choice of its `n`-th event past those a state lists: any event at all, under no law
(R283; 93_implementation_defined.md U5, U6, U7). DESIGN CHOICE (log 2): a constant with no body. -/
opaque Config.freeEvent : Nat → Event

/-- The `P.cycle_hz` of the default configuration, for which R5 gives no default: a free value, a constant with no body
(log 10). -/
opaque Config.openCycleHz : Rate

/-- The `P.frame_hz` of the default configuration, likewise free (log 10). -/
opaque Config.openFrameHz : Rate

end Sys2Proof
end

