-- ==== Sys2Proof/Machine/Defaults.lean ====
section
/-! DEFINITION. The default configuration (00_scope.md R5) and the default glyph table (10_state.md R37). -/

namespace Sys2Proof.Machine

/-- The 80 bytes of the default `P.font`, five a glyph, digit 0 first (10_state.md R37, D6). PRESUMED (log 12): the
spec supplies these bytes from general knowledge; a claim about glyph pixels takes `P.font` as a parameter. -/
def defaultGlyphs : List Byte :=
  [0xF0, 0x90, 0x90, 0x90, 0xF0] ++ [0x20, 0x60, 0x20, 0x20, 0x70]
  ++ [0xF0, 0x10, 0xF0, 0x80, 0xF0] ++ [0xF0, 0x10, 0xF0, 0x10, 0xF0]
  ++ [0x90, 0x90, 0xF0, 0x10, 0x10] ++ [0xF0, 0x80, 0xF0, 0x10, 0xF0]
  ++ [0xF0, 0x80, 0xF0, 0x90, 0xF0] ++ [0xF0, 0x10, 0x20, 0x40, 0x40]
  ++ [0xF0, 0x90, 0xF0, 0x90, 0xF0] ++ [0xF0, 0x90, 0xF0, 0x10, 0xF0]
  ++ [0xF0, 0x90, 0xF0, 0x90, 0x90] ++ [0xE0, 0x90, 0xE0, 0x90, 0xE0]
  ++ [0xF0, 0x80, 0x80, 0x80, 0xF0] ++ [0xE0, 0x90, 0x90, 0x90, 0xE0]
  ++ [0xF0, 0x80, 0xF0, 0x80, 0xF0] ++ [0xF0, 0x80, 0xF0, 0x80, 0x80]

/-- The default `P.font` (R37). -/
def defaultFont : Vector Byte 80 := Vector.ofFn fun j => defaultGlyphs.getD j.val 0

/-- The defaults of R5 (decisions D17, D18, D19, D7, D6), with no program. R5 gives `P.rom` no default; the empty
image is the model's choice (log 8). It gives the OPEN rates none either; they are left free (log 10). -/
def defaultConfig : Config where
  shiftCopyVy := false
  keywaitEdge := .release
  fx1eSetsVf := true
  stackDepth := 16
  font := defaultFont
  rom := []
  cycleHz := Config.openCycleHz
  frameHz := Config.openFrameHz

end Sys2Proof.Machine
end

