-- ==== Sys2Proof/Machine/State.lean ====
section
/-! DEFINITION. The state of the core (10_state.md R20), the environment as plain data, the reasons a step can stop,
and the state after reset (R42). -/

namespace Sys2Proof.Machine

/-- `mem`: the listed cells, addresses strictly rising, none equal to what an unlisted address reads as
(20_memory.md R60; the form is `Memory.wf`, log 7). -/
abbrev Memory := List Host.Cell

/-- `FB`: row `y` of the framebuffer is entry `y`, and pixel `FB[y][x]` is bit `x` of that row (10_state.md R33,
log 11). -/
abbrev FrameBuffer := Vector (BitVec 64) 32

/-- The fault causes (60_exceptions.md R270). -/
inductive FaultCause where
  | unsupportedOpcode
  | stackUnderflow
  | outOfBoundsAccess
  | stackOverflow
deriving DecidableEq, Repr

/-- The record of a fault (60_exceptions.md R272). -/
structure FaultRecord where
  cause : FaultCause
  /-- The fetch address of the step that faulted. -/
  pc : Word
  /-- The word decoded, or none when the fetch itself faulted. -/
  opcode : Option Word
  /-- For OutOfBoundsAccess the lowest out-of-range address, else none. -/
  addr : Option Word
deriving DecidableEq, Repr

/-- The environment, as plain data of the model (logs 2 and 3); no component of the spec's state. -/
structure Env where
  /-- The next events, first to come first (60_exceptions.md R283). -/
  events : List Event
  /-- How many events past the listed ones have been taken. -/
  drawn : Nat
  /-- The key set `K` sampled by the current step (40_execute_cycle.md R126). -/
  keys : Keys
  /-- The random byte `R` sampled by the current step (R126). -/
  random : Byte
deriving DecidableEq, Repr

/-- The whole state. -/
structure State where
  /-- `V[0..15]` (10_state.md R21). -/
  v : Vector Byte 16
  /-- `I` (R27). -/
  i : Word
  /-- `PC` (R24). -/
  pc : Word
  /-- The call stack, bottom entry first: a push appends, a pop takes the last (R31). -/
  stack : List Word
  /-- `DT` (R29). -/
  dt : Byte
  /-- `ST` (R30). -/
  st : Byte
  /-- `mem` (R36). -/
  mem : Memory
  /-- `FB` (R33). -/
  fb : FrameBuffer
  /-- `kw_active` (R34). -/
  kwActive : Bool
  /-- `kw_prev` (R34). -/
  kwPrev : Keys
  /-- `halted` (R35). -/
  halted : Bool
  /-- `fault` (R35). -/
  fault : Option FaultRecord
  /-- The configuration `P` the core was built with; only `Reset(P)` writes it (00_scope.md R5, log 1). -/
  cfg : Config
  /-- The environment. -/
  env : Env
deriving DecidableEq, Repr

/-- The stops of a step that are no state of the spec. There are none: every fault of 60_exceptions.md R270 is taken
as the halted next state that R271 describes (log 4). Nobody raises one; safe. -/
inductive Fault where
deriving DecidableEq, Repr

/-- What the model gives no meaning to. -/
inductive Refusal where
  /-- Raised by an arm of `exec` whose instruction has no meaning yet. Safe. No arm is left so. -/
  | notModelled (mnemonic : String)
  /-- Raised by `construct` on a `Reset(P)` whose ROM is over 3584 bytes: no core is built
  (70_reset_and_hazards.md R302; 93_implementation_defined.md U9 "refuse"). Safe. -/
  | romOversized
  /-- Raised by `construct` on a `Reset(P)` with `P.stack_depth = 0`, which is no configuration (00_scope.md R5 "natural,
  at least 1"; log 5). Safe. -/
  | stackDepthZero
deriving DecidableEq, Repr

/-- The program load address and entry point (00_scope.md R6, 70_reset_and_hazards.md R303). -/
abbrev entryPoint : Word := 0x200

/-- The state after `Reset(P)` for the default configuration with no program: every component as 10_state.md R42 gives
it. No cell is listed, since an unlisted cell reads as the reset contents (log 7). The values of `env` are the
model's own (logs 2 and 3, DESIGN CHOICE). -/
def State.reset : State where
  v := Vector.replicate 16 0
  i := 0
  pc := entryPoint
  stack := []
  dt := 0
  st := 0
  mem := []
  fb := Vector.replicate 32 0
  kwActive := false
  kwPrev := 0
  halted := false
  fault := none
  cfg := defaultConfig
  env := { events := [], drawn := 0, keys := 0, random := 0 }

end Sys2Proof.Machine
end

