-- ==== Sys2Proof/Machine/Ops.lean ====
section
/-! DEFINITION. The named operations over memory, registers, the program counter and the call stack, the fetch, and the
one operation by which a fault is taken. There is no return from a fault (60_exceptions.md R273). -/

namespace Sys2Proof.Machine

/-! ### Memory (20_memory.md) -/

/-- The number of addresses, 0x000 to 0xFFF (R60). -/
abbrev memSize : Nat := 4096

/-- What an unlisted address reads as: the reset contents with the default font and no program, that is the default
glyphs at 0x000 to 0x04F and 0x00 elsewhere (10_state.md R42, R37; log 7). -/
def Memory.unlisted (a : Nat) : Byte := defaultGlyphs.getD a 0

/-- The canonical form of a memory: addresses strictly rising and inside the array, no cell that reads as unlisted. -/
abbrev Memory.wf (m : Memory) : Prop :=
  m.Pairwise (fun c d => c.1 < d.1) ∧ ∀ c ∈ m, c.1 < memSize ∧ c.2 ≠ Memory.unlisted c.1

/-- `MemRead(a, 1)` (00_scope.md R9): the byte at `a`, with no side effect (R66). -/
def Memory.read : Memory → Nat → Byte
  | [], a => Memory.unlisted a
  | (k, b) :: m, a => if k = a then b else Memory.read m a

/-- The listing of one cell in canonical form. -/
def Memory.cell (a : Nat) (b : Byte) : Memory := if b = Memory.unlisted a then [] else [(a, b)]

/-- Stores a byte in a listing, in canonical form. -/
def Memory.put : Memory → Nat → Byte → Memory
  | [], a, b => Memory.cell a b
  | (k, c) :: m, a, b =>
    if a < k then Memory.cell a b ++ (k, c) :: m
    else if a = k then Memory.cell a b ++ m
    else (k, c) :: Memory.put m a b

/-- `MemWrite(a, 1, b)` (R9): no region is protected (R68). There is no cell above 0xFFF to write; every caller has
checked its range before (R64). -/
def Memory.write (m : Memory) (a : Nat) (b : Byte) : Memory := if a < memSize then m.put a b else m

/-- Single-byte reads at `a`, `a + 1`, … in ascending order (R65). -/
def Memory.readBytes (m : Memory) (a : Nat) : Nat → List Byte
  | 0 => []
  | n + 1 => m.read a :: m.readBytes (a + 1) n

/-- Single-byte writes at `a`, `a + 1`, … in ascending order (R65). -/
def Memory.writeBytes (m : Memory) (a : Nat) : List Byte → Memory
  | [] => m
  | b :: bs => (m.write a b).writeBytes (a + 1) bs

/-- `CheckRange(base, count)` for `count ≥ 1` (R64): the address a violation records, or none if the whole range is in
memory. Addresses are natural numbers and never wrap. -/
def checkRange (base : Word) (count : Nat) : Option Word :=
  if base.toNat + count - 1 > 0xFFF then some (if base.toNat > 0xFFF then base else 0x1000) else none

/-- The fetch at `PC` (40_execute_cycle.md R120, R122): the big-endian opcode, or the address an OutOfBoundsAccess
records. -/
def fetch (s : State) : Except Word Word :=
  let a := s.pc.toNat
  if a ≥ 0xFFF then .error (if a > 0xFFF then s.pc else 0x1000)
  else .ok (bigEndian (s.mem.read a) (s.mem.read (a + 1)))

/-! ### Registers -/

/-- `V[x]` (00_scope.md R9). -/
def State.reg (s : State) (x : RegIdx) : Byte := s.v[x]

/-- `V[x] <- b` (R9). -/
def State.setReg (s : State) (x : RegIdx) (b : Byte) : State := { s with v := s.v.set x b }

/-- The result first, the flag last: with `x = 15` the flag is what remains (10_state.md R22; C4). -/
def State.setResultFlag (s : State) (x : RegIdx) (result flag : Byte) : State :=
  (s.setReg x result).setReg vf flag

/-- Writes bytes to `V[j]`, `V[j + 1]`, … in ascending order. -/
def loadRegs (v : Vector Byte 16) (j : Nat) : List Byte → Vector Byte 16
  | [] => v
  | b :: bs => loadRegs (v.setIfInBounds j b) (j + 1) bs

/-- `V[0], …, V[x]` in ascending order (44_index_and_memory.md R214). -/
def State.regBlock (s : State) (x : RegIdx) : List Byte := s.v.toList.take (x.val + 1)

/-! ### Program counter (40_execute_cycle.md) -/

/-- The pre-advance `PC <- trunc_16(a + 2)` (R123). -/
def State.preAdvance (s : State) : State := { s with pc := s.pc + 2 }

/-- `PC <- t`. -/
def State.setPc (s : State) (t : Word) : State := { s with pc := t }

/-- The skip `PC <- trunc_16(PC + 2)`, after the pre-advance (R127). -/
def State.skip (s : State) : State := { s with pc := s.pc + 2 }

/-- A skip that is taken when the condition holds (42_skips.md). -/
def State.skipIf (s : State) (c : Bool) : State := if c then s.skip else s

/-- The stall `PC <- trunc_16(PC - 2)`, after the pre-advance (45_timers_and_keywait.md R236). -/
def State.stall (s : State) : State := { s with pc := s.pc - 2 }

/-! ### Call stack (10_state.md R31) -/

/-- `Push(v)`, or none when the stack is full. -/
def State.push (s : State) (r : Word) : Option State :=
  if s.stack.length = s.cfg.stackDepth then none else some { s with stack := s.stack ++ [r] }

/-- `Pop()`, or none when the stack is empty. -/
def State.pop (s : State) : Option (Word × State) :=
  match s.stack.getLast? with
  | none => none
  | some r => some (r, { s with stack := s.stack.dropLast })

/-! ### Faults -/

/-- `raise F(info)` (60_exceptions.md R271, R272): taken on the state the step began with, so that none of the step's
writes is committed and `PC` stays the fetch address (40_execute_cycle.md R125). -/
def State.raise (s : State) (cause : FaultCause) (opcode addr : Option Word) : State :=
  { s with halted := true, fault := some { cause := cause, pc := s.pc, opcode := opcode, addr := addr } }

end Sys2Proof.Machine
end

