-- ==== Sys2Proof/Machine/Construct.lean ====
section
/-! DEFINITION. `Reset(P)`: the construction of a core (70_reset_and_hazards.md R300, R301, R302). -/

namespace Sys2Proof.Machine

/-- Memory after reset (R301). Unlisted cells outside the glyph region read 0x00, the zero fill; the 80 bytes of
`P.font` then cover 0x000 to 0x04F, and `P.rom` goes to 0x200. -/
def initialMemory (p : Config) : Memory :=
  (Memory.writeBytes [] 0 p.font.toList).writeBytes entryPoint.toNat p.rom

/-- The state 10_state.md R42 gives after `Reset(P)`; the environment is not the core's and goes on. -/
def built (p : Config) (env : Env) : State where
  v := Vector.replicate 16 0
  i := 0
  pc := entryPoint
  stack := []
  dt := 0
  st := 0
  mem := initialMemory p
  fb := Vector.replicate 32 0
  kwActive := false
  kwPrev := 0
  halted := false
  fault := none
  cfg := p
  env := env

/-- `Reset(P)` under an environment. An oversized ROM is rejected and no core is built (R302, D26); so is a stack depth
of 0, which is no configuration (00_scope.md R5; log 5). -/
def construct (p : Config) (env : Env) : Host.Outcome State Fault Refusal :=
  if p.rom.length > romCapacity then .refused .romOversized
  else if p.stackDepth = 0 then .refused .stackDepthZero
  else .next (built p env)

end Sys2Proof.Machine
end

