-- ==== Sys2Proof/Machine/Operands.lean ====
section
/-! DEFINITION. The values the operands of an instruction stand for: immediates (30_encoding.md R93), the shift operand,
the sums and addresses of 43 and 44, the keys of 42 and 45. -/

namespace Sys2Proof.Machine

/-- `zext_16(NNN)` (30_encoding.md R93). -/
def addrOf (nnn : BitVec 12) : Word := nnn.zeroExtend 16

/-- The target of BNNN, not masked to 12 bits (41_control_flow.md R143). -/
def offsetTarget (nnn : BitVec 12) (v0 : Byte) : Word := BitVec.ofNat 16 (nnn.toNat + v0.toNat)

/-- The byte 8XY6 and 8XYE shift: `P.shift_copy_vy ? V[Y] : V[X]` (43_register_alu.md R188, R190). -/
def State.shiftOperand (s : State) (x y : RegIdx) : Byte := if s.cfg.shiftCopyVy then s.reg y else s.reg x

/-- `trunc_8(x + y)` (R181, R186). -/
def sum8 (x y : Byte) : Byte := BitVec.ofNat 8 (x.toNat + y.toNat)

/-- `(x - y + 256) mod 256` (R187, R189). -/
def diff8 (x y : Byte) : Byte := BitVec.ofNat 8 (x.toNat + 256 - y.toNat)

/-- `v >> 1` (R188). -/
def shiftRight1 (v : Byte) : Byte := BitVec.ofNat 8 (v.toNat >>> 1)

/-- `trunc_8(v << 1)` (R190). -/
def shiftLeft1 (v : Byte) : Byte := BitVec.ofNat 8 (v.toNat <<< 1)

/-- The widened sum of FX1E (44_index_and_memory.md R211). -/
def indexSum (i : Word) (x : Byte) : Nat := i.toNat + x.toNat

/-- The address of the glyph of `x`, not masked (R212). -/
def glyphAddress (x : Byte) : Word := BitVec.ofNat 16 (x.toNat * 5)

/-- Hundreds, tens and ones of `x` (R213). -/
def bcdDigits (x : Byte) : List Byte :=
  [BitVec.ofNat 8 (x.toNat / 100), BitVec.ofNat 8 (x.toNat / 10 % 10), BitVec.ofNat 8 (x.toNat % 10)]

/-- `Pressed(x)`: key `x` is in the sampled set, never for `x > 15` (42_skips.md R166). -/
def pressed (keys : Keys) (x : Byte) : Bool := decide (x.toNat ≤ 15) && keys.getLsbD x.toNat

/-- `Edges(prev, now)` (45_timers_and_keywait.md R234). -/
def edges (edge : KeyEdge) (prev now : Keys) : Keys :=
  match edge with
  | .release => prev &&& ~~~now
  | .press => now &&& ~~~prev

/-- The lowest key number of a set, none if it is empty (R235). -/
def lowestKey (e : Keys) : Option Nat := (List.range 16).find? fun k => e.getLsbD k

end Sys2Proof.Machine
end

