-- ==== Sys2Proof/Machine/Flags.lean ====
section
/-! DEFINITION. The values written to `VF` as a flag (10_state.md R22). -/

namespace Sys2Proof.Machine

/-- A flag as the byte 1 or 0. -/
def flagByte (b : Bool) : Byte := if b then 1 else 0

/-- The carry of 8XY4 (43_register_alu.md R186). -/
def carryFlag (x y : Byte) : Byte := flagByte (decide (x.toNat + y.toNat > 255))

/-- Not-borrow of `x - y`: 8XY5 and, with the operands exchanged, 8XY7 (R187, R189). -/
def notBorrowFlag (x y : Byte) : Byte := flagByte (decide (x.toNat ≥ y.toNat))

/-- Bit 0 of the pre-shift value, 8XY6 (R188). -/
def shrFlag (v : Byte) : Byte := flagByte (v.getLsbD 0)

/-- Bit 7 of the pre-shift value, 8XYE (R190). -/
def shlFlag (v : Byte) : Byte := flagByte (v.getLsbD 7)

/-- The index overflow of FX1E, on the untruncated sum (44_index_and_memory.md R211). -/
def indexFlag (sum : Nat) : Byte := flagByte (decide (sum > 0xFFF))

/-- The collision of DXYN (46_display.md R251). -/
def collisionFlag (hit : Bool) : Byte := flagByte hit

end Sys2Proof.Machine
end

