-- ==== Sys2Proof/Machine/Alu.lean ====
section
/-! DEFINITION. Register loads, arithmetic and logic (43_register_alu.md). Each meaning is that of the whole step at the
fetch address `PC = a`: the pre-advance (40_execute_cycle.md R123), then the rule's pseudocode. None can fault. -/

namespace Sys2Proof.Machine

/-- 6XNN: `V[X] <- NN` (R180). -/
def execLdImm (x : RegIdx) (nn : Byte) (s : State) : Host.Outcome State Fault Refusal :=
  .next (s.preAdvance.setReg x nn)

/-- 7XNN: `V[X] <- trunc_8(V[X] + NN)`, no flag (R181). -/
def execAddImm (x : RegIdx) (nn : Byte) (s : State) : Host.Outcome State Fault Refusal :=
  .next (s.preAdvance.setReg x (sum8 (s.reg x) nn))

/-- 8XY0: `V[X] <- V[Y]` (R182). -/
def execLdReg (x y : RegIdx) (s : State) : Host.Outcome State Fault Refusal :=
  .next (s.preAdvance.setReg x (s.reg y))

/-- 8XY1: `V[X] <- V[X] | V[Y]`; `VF` is not written as a flag (R183, D22). -/
def execOr (x y : RegIdx) (s : State) : Host.Outcome State Fault Refusal :=
  .next (s.preAdvance.setReg x (s.reg x ||| s.reg y))

/-- 8XY2: `V[X] <- V[X] & V[Y]` (R184, D22). -/
def execAnd (x y : RegIdx) (s : State) : Host.Outcome State Fault Refusal :=
  .next (s.preAdvance.setReg x (s.reg x &&& s.reg y))

/-- 8XY3: `V[X] <- V[X] ^ V[Y]` (R185, D22). -/
def execXor (x y : RegIdx) (s : State) : Host.Outcome State Fault Refusal :=
  .next (s.preAdvance.setReg x (s.reg x ^^^ s.reg y))

/-- 8XY4: the sum, then the carry (R186). -/
def execAddReg (x y : RegIdx) (s : State) : Host.Outcome State Fault Refusal :=
  .next (s.preAdvance.setResultFlag x (sum8 (s.reg x) (s.reg y)) (carryFlag (s.reg x) (s.reg y)))

/-- 8XY5: `V[X] - V[Y]`, then not-borrow (R187). -/
def execSub (x y : RegIdx) (s : State) : Host.Outcome State Fault Refusal :=
  .next (s.preAdvance.setResultFlag x (diff8 (s.reg x) (s.reg y)) (notBorrowFlag (s.reg x) (s.reg y)))

/-- 8XY6: the shift operand right by 1, then its bit 0 (R188). -/
def execShr (x y : RegIdx) (s : State) : Host.Outcome State Fault Refusal :=
  .next (s.preAdvance.setResultFlag x (shiftRight1 (s.shiftOperand x y)) (shrFlag (s.shiftOperand x y)))

/-- 8XY7: `V[Y] - V[X]`, then not-borrow (R189). -/
def execSubn (x y : RegIdx) (s : State) : Host.Outcome State Fault Refusal :=
  .next (s.preAdvance.setResultFlag x (diff8 (s.reg y) (s.reg x)) (notBorrowFlag (s.reg y) (s.reg x)))

/-- 8XYE: the shift operand left by 1, then its bit 7 (R190). -/
def execShl (x y : RegIdx) (s : State) : Host.Outcome State Fault Refusal :=
  .next (s.preAdvance.setResultFlag x (shiftLeft1 (s.shiftOperand x y)) (shlFlag (s.shiftOperand x y)))

/-- CXNN: `V[X] <- R & NN`, `R` the byte sampled for this step (R191). -/
def execRnd (x : RegIdx) (nn : Byte) (s : State) : Host.Outcome State Fault Refusal :=
  .next (s.preAdvance.setReg x (s.env.random &&& nn))

end Sys2Proof.Machine
end

