-- ==== Sys2Proof/Machine/Control.lean ====
section
/-! DEFINITION. Control transfer (41_control_flow.md). Each meaning is that of the whole step at the fetch address
`PC = a`. A target is not checked here; the next fetch checks it (R144). -/

namespace Sys2Proof.Machine

/-- 00EE: `PC <- Pop()`, or StackUnderflow on an empty stack (R140). -/
def execRet (s : State) : Host.Outcome State Fault Refusal :=
  .next <|
    match s.preAdvance.pop with
    | some (r, t) => t.setPc r
    | none => s.raise .stackUnderflow (some (encode .ret)) none

/-- 1NNN: `PC <- NNN` (R141). -/
def execJp (nnn : BitVec 12) (s : State) : Host.Outcome State Fault Refusal :=
  .next (s.preAdvance.setPc (addrOf nnn))

/-- 2NNN: `Push(PC)`, the address after the call, then `PC <- NNN`; StackOverflow on a full stack (R142). -/
def execCall (nnn : BitVec 12) (s : State) : Host.Outcome State Fault Refusal :=
  .next <|
    match s.preAdvance.push s.preAdvance.pc with
    | some t => t.setPc (addrOf nnn)
    | none => s.raise .stackOverflow (some (encode (.call nnn))) none

/-- BNNN: `PC <- NNN + V[0]`, always `V[0]` and not masked (R143). -/
def execJpV0 (nnn : BitVec 12) (s : State) : Host.Outcome State Fault Refusal :=
  .next (s.preAdvance.setPc (offsetTarget nnn (s.reg 0)))

end Sys2Proof.Machine
end

