-- ==== Sys2Proof/Machine/Index.lean ====
section
/-! DEFINITION. The index register and memory transfers (44_index_and_memory.md). The only addressing mode is through
`I`, and no transfer changes `I` (D23). A transfer checks its whole range first and on a violation commits nothing
(20_memory.md R64, 40_execute_cycle.md R125). -/

namespace Sys2Proof.Machine

/-- `I <- t`. -/
def State.setI (s : State) (t : Word) : State := { s with i := t }

/-- `t` if the `count` bytes from `I` are in memory, else OutOfBoundsAccess recorded with the opcode of `ins`
(20_memory.md R64, 60_exceptions.md R270). -/
def State.ifInRange (s : State) (ins : Instr) (count : Nat) (t : State) : State :=
  match checkRange s.i count with
  | none => t
  | some addr => s.raise .outOfBoundsAccess (some (encode ins)) (some addr)

/-- ANNN: `I <- NNN` (R210). -/
def execLdI (nnn : BitVec 12) (s : State) : Host.Outcome State Fault Refusal :=
  .next (s.preAdvance.setI (addrOf nnn))

/-- FX1E: `I <- trunc_16(I + V[X])`, then, when `P.fx1e_sets_vf`, the overflow flag of the untruncated sum (R211). -/
def execAddI (x : RegIdx) (s : State) : Host.Outcome State Fault Refusal :=
  let sum := indexSum s.i (s.reg x)
  let t := s.preAdvance.setI (BitVec.ofNat 16 sum)
  .next (if s.cfg.fx1eSetsVf then t.setReg vf (indexFlag sum) else t)

/-- FX29: `I <- V[X] * 5`, not masked to a digit (R212). -/
def execLdF (x : RegIdx) (s : State) : Host.Outcome State Fault Refusal :=
  .next (s.preAdvance.setI (glyphAddress (s.reg x)))

/-- FX33: hundreds, tens and ones of `V[X]` to `I`, `I + 1`, `I + 2` (R213). -/
def execLdB (x : RegIdx) (s : State) : Host.Outcome State Fault Refusal :=
  .next <| s.ifInRange (.ldB x) 3
    { s.preAdvance with mem := s.mem.writeBytes s.i.toNat (bcdDigits (s.reg x)) }

/-- FX55: `V[0..X]` to memory from `I` (R214). -/
def execLdMemVx (x : RegIdx) (s : State) : Host.Outcome State Fault Refusal :=
  .next <| s.ifInRange (.ldMemVx x) (x.val + 1)
    { s.preAdvance with mem := s.mem.writeBytes s.i.toNat (s.regBlock x) }

/-- FX65: `V[0..X]` from memory at `I` (R215). -/
def execLdVxMem (x : RegIdx) (s : State) : Host.Outcome State Fault Refusal :=
  .next <| s.ifInRange (.ldVxMem x) (x.val + 1)
    { s.preAdvance with v := loadRegs s.v 0 (s.mem.readBytes s.i.toNat (x.val + 1)) }

end Sys2Proof.Machine
end

