-- ==== Sys2Proof/Machine/Display.lean ====
section
/-! DEFINITION. The display operations (46_display.md). -/

namespace Sys2Proof.Machine

/-- The framebuffer with every pixel 0 (R250). -/
def blankScreen : FrameBuffer := Vector.replicate 32 0

/-- `FB[y mod 32][x mod 64]`. -/
def pixelAt (fb : FrameBuffer) (x y : Nat) : Bool :=
  (fb[y % 32]'(Nat.mod_lt y (by decide))).getLsbD (x % 64)

/-- `FB[py][px] <- FB[py][px] ^ 1` with `px = x mod 64`, `py = y mod 32` (R252). -/
def flipPixel (fb : FrameBuffer) (x y : Nat) : FrameBuffer :=
  fb.set (y % 32) ((fb[y % 32]'(Nat.mod_lt y (by decide))) ^^^ (1#64 <<< (x % 64))) (Nat.mod_lt y (by decide))

/-- `Toggle(x, y)`: flips one pixel and answers its new value (R252). -/
def toggle (fb : FrameBuffer) (x y : Nat) : FrameBuffer × Bool :=
  (flipPixel fb x y, pixelAt (flipPixel fb x y) x y)

/-- One column of a sprite row: a set bit toggles its pixel, and a pixel turned off is a collision (R251). The second
component of `acc` is the collision so far; it is never set back. -/
def drawColumn (x0 y : Nat) (b : Byte) (acc : FrameBuffer × Bool) (c : Nat) : FrameBuffer × Bool :=
  if b.getLsbD (7 - c) then ((toggle acc.1 (x0 + c) y).1, acc.2 || !(toggle acc.1 (x0 + c) y).2) else acc

/-- One sprite row, most significant bit first (R251). -/
def drawRow (x0 y : Nat) (b : Byte) (acc : FrameBuffer × Bool) : FrameBuffer × Bool :=
  [0, 1, 2, 3, 4, 5, 6, 7].foldl (drawColumn x0 y b) acc

/-- The sprite's rows, top to bottom from row `y` (R251). -/
def drawRows (x0 y : Nat) : List Byte → FrameBuffer × Bool → FrameBuffer × Bool
  | [], acc => acc
  | b :: bs, acc => drawRows x0 (y + 1) bs (drawRow x0 y b acc)

/-- 00E0: every pixel 0; `VF` unchanged (R250). -/
def execCls (s : State) : Host.Outcome State Fault Refusal :=
  .next { s.preAdvance with fb := blankScreen }

/-- A sprite of `n` rows drawn at `(V[X], V[Y])`, both read before `VF` is written; no collision seen yet (R251). -/
def State.drawSprite (s : State) (x y : RegIdx) (n : Nat) : FrameBuffer × Bool :=
  drawRows (s.reg x).toNat (s.reg y).toNat (s.mem.readBytes s.i.toNat n) (s.fb, false)

/-- DXYN (R251): the sprite range is checked unless `N = 0`; then the sprite is drawn and `VF` is the collision. -/
def execDrw (x y : RegIdx) (n : Nat) (s : State) : Host.Outcome State Fault Refusal :=
  let r := s.drawSprite x y n
  let t := { s.preAdvance with fb := r.1 }.setReg vf (collisionFlag r.2)
  .next (if n = 0 then t else s.ifInRange (.drw x y n) n t)

end Sys2Proof.Machine
end

