-- ==== Sys2Proof/Machine/Skips.lean ====
section
/-! DEFINITION. Conditional skips (42_skips.md): `PC` ends at `a + 4` when the condition holds, else at `a + 2`. No skip
writes anything else, and none can fault. -/

namespace Sys2Proof.Machine

/-- 3XNN: skip if `V[X] = NN` (R160). -/
def execSeImm (x : RegIdx) (nn : Byte) (s : State) : Host.Outcome State Fault Refusal :=
  .next (s.preAdvance.skipIf (s.reg x == nn))

/-- 4XNN: skip if `V[X] != NN` (R161). -/
def execSneImm (x : RegIdx) (nn : Byte) (s : State) : Host.Outcome State Fault Refusal :=
  .next (s.preAdvance.skipIf (s.reg x != nn))

/-- 5XY0: skip if `V[X] = V[Y]` (R162). -/
def execSeReg (x y : RegIdx) (s : State) : Host.Outcome State Fault Refusal :=
  .next (s.preAdvance.skipIf (s.reg x == s.reg y))

/-- 9XY0: skip if `V[X] != V[Y]` (R163). -/
def execSneReg (x y : RegIdx) (s : State) : Host.Outcome State Fault Refusal :=
  .next (s.preAdvance.skipIf (s.reg x != s.reg y))

/-- EX9E: skip if key `V[X]` is in the sampled set (R164, R166). -/
def execSkp (x : RegIdx) (s : State) : Host.Outcome State Fault Refusal :=
  .next (s.preAdvance.skipIf (pressed s.env.keys (s.reg x)))

/-- EXA1: skip if key `V[X]` is not in the sampled set (R165, R166). -/
def execSknp (x : RegIdx) (s : State) : Host.Outcome State Fault Refusal :=
  .next (s.preAdvance.skipIf (!pressed s.env.keys (s.reg x)))

end Sys2Proof.Machine
end

