-- ==== Sys2Proof/Machine/Timers.lean ====
section
/-! DEFINITION. The 60 Hz tick (60_exceptions.md R276, R278), timer access and the key wait
(45_timers_and_keywait.md). -/

namespace Sys2Proof.Machine

/-- One counter toward zero, never below (60_exceptions.md R276). -/
def countDown (n : Byte) : Byte := if n = 0 then 0 else n - 1

/-- `Tick`: both timers count down, independently; nothing while halted (R276, R278). -/
def State.tick (s : State) : State :=
  if s.halted then s else { s with dt := countDown s.dt, st := countDown s.st }

/-- FX07: `V[X] <- DT` (R230). -/
def execLdVxDt (x : RegIdx) (s : State) : Host.Outcome State Fault Refusal :=
  .next (s.preAdvance.setReg x s.dt)

/-- FX15: `DT <- V[X]` (R231). -/
def execLdDtVx (x : RegIdx) (s : State) : Host.Outcome State Fault Refusal :=
  .next { s.preAdvance with dt := s.reg x }

/-- FX18: `ST <- V[X]` (R232). -/
def execLdStVx (x : RegIdx) (s : State) : Host.Outcome State Fault Refusal :=
  .next { s.preAdvance with st := s.reg x }

/-- Goes on waiting: the sampled set becomes the previous one, and the step stalls (R233, R236). -/
def State.keepWaiting (s : State) : State :=
  { s.preAdvance.stall with kwActive := true, kwPrev := s.env.keys }

/-- FX0A (R233): the first execution begins the wait; a later one completes it on an edge, with the lowest key of the
edge set (R235), or goes on waiting. -/
def execLdVxK (x : RegIdx) (s : State) : Host.Outcome State Fault Refusal :=
  .next <|
    if s.kwActive then
      match lowestKey (edges s.cfg.keywaitEdge s.kwPrev s.env.keys) with
      | some k => { s.preAdvance.setReg x (BitVec.ofNat 8 k) with kwActive := false, kwPrev := 0 }
      | none => s.keepWaiting
    else s.keepWaiting

end Sys2Proof.Machine
end

