-- ==== Sys2Proof/Machine/Environment.lean ====
section
/-! DEFINITION. The environment's next event (60_exceptions.md R283) and the sampling of a step's inputs
(40_execute_cycle.md R126). -/

namespace Sys2Proof.Machine

/-- The event this step of the model takes: the first one listed, or past the list a free one (log 2). -/
def State.nextEvent (s : State) : Event :=
  match s.env.events with
  | e :: _ => e
  | [] => Config.freeEvent s.env.drawn

/-- The environment after its next event is taken. -/
def Env.advance (e : Env) : Env :=
  match e.events with
  | _ :: rest => { e with events := rest }
  | [] => { e with drawn := e.drawn + 1 }

/-- Takes the next event off the environment. -/
def State.takeEvent (s : State) : State := { s with env := s.env.advance }

/-- Samples `K` and `R`, once, at the start of a step (R126). -/
def State.sample (s : State) (keys : Keys) (random : Byte) : State :=
  { s with env := { s.env with keys := keys, random := random } }

end Sys2Proof.Machine
end

