-- ==== Sys2Proof/Machine/Cycle.lean ====
section
/-! DEFINITION. The `Step(K, R)` event: one fetch-decode-execute (40_execute_cycle.md R120 to R126). -/

namespace Sys2Proof.Machine

/-- Runs a fetched opcode: the decoded instruction, or UnsupportedOpcode (R124, 60_exceptions.md R270). -/
def State.dispatch (s : State) (op : Word) : Host.Outcome State Fault Refusal :=
  match decode op with
  | .ok i => exec i s
  | .error _ => .next (s.raise .unsupportedOpcode (some op) none)

/-- Fetches and runs one opcode: a fault of the fetch first, then one of the decode, then the instruction's own
(60_exceptions.md R274). -/
def State.fetchExecute (s : State) : Host.Outcome State Fault Refusal :=
  match fetch s with
  | .ok op => s.dispatch op
  | .error addr => .next (s.raise .outOfBoundsAccess none (some addr))

/-- `Step(K, R)` (R120): nothing while halted (R121), else the inputs are sampled once (R126) and one opcode runs. -/
def State.stepEvent (s : State) (keys : Keys) (random : Byte) : Host.Outcome State Fault Refusal :=
  if s.halted then .next s else (s.sample keys random).fetchExecute

end Sys2Proof.Machine
end

