-- ==== Sys2Proof/Machine/Placement.lean ====
section
/-! DEFINITION. Placing an opcode where the next step fetches, for the host's questions (log 8); no part of the
hardware. -/

namespace Sys2Proof.Machine

/-- A state that fetches: not halted, with `PC` where a whole word is in memory (40_execute_cycle.md R121, R122). -/
def State.readyToFetch (s : State) : State :=
  { s with
    halted := false
    fault := none
    pc := if s.pc.toNat < 0xFFF then s.pc else entryPoint }

/-- The bytes of an opcode at `PC`, high byte first (20_memory.md R61). -/
def State.placeWord (s : State) (op : Word) : State :=
  { s with mem := (s.mem.write s.pc.toNat (highByte op)).write (s.pc.toNat + 1) (lowByte op) }

/-- Makes a Step event the next one: the listed one if it is a Step, else a Step with no key and a zero byte put in
front. -/
def State.stepNext (s : State) : State :=
  match s.env.events with
  | .step _ _ :: _ => s
  | es => { s with env := { s.env with events := .step 0 0 :: es } }

end Sys2Proof.Machine
end

