-- ==== Sys2Proof/Machine/Step.lean ====
section
/-! DEFINITION. One step of the machine: one event of the environment (10_state.md R38, 60_exceptions.md R283). -/

namespace Sys2Proof.Machine

/-- Takes the environment's next event and applies it, atomically, to the state left by the one before (R283). -/
def step (s : State) : Host.Outcome State Fault Refusal :=
  match s.nextEvent with
  | .step keys random => s.takeEvent.stepEvent keys random
  | .tick => .next s.takeEvent.tick
  | .reset p => construct p s.takeEvent.env

/-- `s` with the opcode-table word stored where the next step fetches, and a Step as the next event, so that the next
step runs exactly it (log 8). -/
def State.withFetchWord (s : State) (nbits w : Nat) : State :=
  (s.readyToFetch.placeWord (tableWord nbits w)).stepNext

end Sys2Proof.Machine
end

