-- ==== Sys2Proof/Machine/Ports.lean ====
section
/-! DEFINITION. The output ports, continuous functions of the state (10_state.md R38, R39). -/

namespace Sys2Proof.Machine

/-- `tone_en = (ST != 0) and not halted` (R39). -/
def State.toneEn (s : State) : Bool := s.st != 0 && !s.halted

/-- `fb`: whether pixel `(x, y)`, `x < 64`, `y < 32`, is on (R33, R38). -/
def State.pixel (s : State) (x : Fin 64) (y : Fin 32) : Bool := s.fb[y].getLsbD x

/-- The numeric codes of the causes (60_exceptions.md R270). -/
def FaultCause.code : FaultCause → BitVec 3
  | .unsupportedOpcode => 1
  | .stackUnderflow => 2
  | .outOfBoundsAccess => 3
  | .stackOverflow => 4

/-- `halted` (R38). -/
def State.haltedPort (s : State) : Bool := s.halted

/-- `fault_cause`, 0 when none (R38). -/
def State.faultCausePort (s : State) : BitVec 3 := s.fault.elim 0 (·.cause.code)

/-- `fault_pc`, 0 when none (R38). -/
def State.faultPcPort (s : State) : Word := s.fault.elim 0 (·.pc)

/-- `fault_opcode_valid` (R38). -/
def State.faultOpcodeValid (s : State) : Bool := (s.fault.bind (·.opcode)).isSome

/-- `fault_opcode`, 0 when absent (R38). -/
def State.faultOpcodePort (s : State) : Word := (s.fault.bind (·.opcode)).getD 0

/-- `fault_addr_valid` (R38). -/
def State.faultAddrValid (s : State) : Bool := (s.fault.bind (·.addr)).isSome

/-- `fault_addr`, 0 when absent (R38). -/
def State.faultAddrPort (s : State) : Word := (s.fault.bind (·.addr)).getD 0

end Sys2Proof.Machine
end

