-- ==== Sys2Proof/Safety.lean ====
section
/-! DEFINITION. What a safe run is, in the terms claims use: the invariant of the core, and the frames that say which
components a step leaves unchanged. -/

namespace Sys2Proof.Machine

/-- The word an FX0A in progress stands on. -/
def State.onKeyWait (s : State) : Prop := ∃ x : RegIdx, fetch s = .ok (encode (.ldVxK x))

/-- A recorded fault agrees with the state it halted in (60_exceptions.md R270, R271, R272): `PC` is the fetch
address; the opcode is the word there, or none exactly when the fetch itself faults; the address is there exactly for
OutOfBoundsAccess, and is out of range. -/
structure FaultRecord.Agrees (r : FaultRecord) (s : State) : Prop where
  pc : r.pc = s.pc
  opcode : fetch s = match r.opcode with
    | some op => .ok op
    | none => .error (r.addr.getD 0)
  fetchCause : r.opcode = none → r.cause = .outOfBoundsAccess
  addr : r.addr.isSome ↔ r.cause = .outOfBoundsAccess
  outside : ∀ a, r.addr = some a → 0xFFF < a.toNat

/-- The invariant every event keeps. -/
structure State.Inv (s : State) : Prop where
  /-- The configuration is one a core can be built with (00_scope.md R5, 70_reset_and_hazards.md R302). -/
  cfg : s.cfg.wf
  /-- Memory keeps its canonical form (log 7). -/
  mem : s.mem.wf
  /-- The stack holds at most `P.stack_depth` entries (10_state.md R31). -/
  depth : s.stack.length ≤ s.cfg.stackDepth
  /-- A return address is `a + 2` of a call that was fetched (41_control_flow.md R142, 40_execute_cycle.md R122). -/
  entries : ∀ r ∈ s.stack, r.toNat ≤ 0x1000
  /-- The largest `PC` any rule reaches (10_state.md R26). -/
  pc : s.pc.toNat ≤ 0x10FE
  /-- The two parts of the latch are set together (10_state.md R35). -/
  latch : s.halted = s.fault.isSome
  /-- The record describes the step that faulted. -/
  record : ∀ r, s.fault = some r → r.Agrees s
  /-- Outside a wait the key-wait state has its reset value (45_timers_and_keywait.md R237). -/
  idle : s.kwActive = false → s.kwPrev = 0
  /-- A wait in progress is continued by an FX0A at the same address (R237), and a stall is no fault (R236). -/
  waiting : s.kwActive = true → s.onKeyWait ∧ s.halted = false

/-- Every register but those named keeps its value. -/
def SameRegsBut (P : RegIdx → Prop) (s t : State) : Prop := ∀ j, ¬ P j → t.reg j = s.reg j

/-- Every register keeps its value. -/
def SameRegs (s t : State) : Prop := ∀ j, t.reg j = s.reg j

/-- Every byte of memory reads as before. -/
def SameMemory (s t : State) : Prop := ∀ a, t.mem.read a = s.mem.read a

/-- Every byte of memory outside `len` bytes from `base` reads as before. -/
def SameMemoryOutside (base len : Nat) (s t : State) : Prop :=
  ∀ a, ¬ (base ≤ a ∧ a < base + len) → t.mem.read a = s.mem.read a

/-- Every pixel is as before. -/
def SameScreen (s t : State) : Prop := ∀ x y, t.pixel x y = s.pixel x y

/-- The configuration, the fault latch and the environment are as before. -/
structure SameControl (s t : State) : Prop where
  cfg : t.cfg = s.cfg
  halted : t.halted = s.halted
  fault : t.fault = s.fault
  env : t.env = s.env

/-- Both timers are as before. -/
structure SameTimers (s t : State) : Prop where
  dt : t.dt = s.dt
  st : t.st = s.st

/-- The key-wait state is as before. -/
structure SameKeyWait (s t : State) : Prop where
  active : t.kwActive = s.kwActive
  prev : t.kwPrev = s.kwPrev

/-- The frame of an instruction that writes only registers, beside `PC`. -/
structure RegistersOnly (s t : State) : Prop where
  i : t.i = s.i
  stack : t.stack = s.stack
  mem : SameMemory s t
  screen : SameScreen s t
  timers : SameTimers s t
  keyWait : SameKeyWait s t
  control : SameControl s t

/-- The frame of an instruction that writes only the call stack, beside `PC`. -/
structure StackOnly (s t : State) : Prop where
  regs : SameRegs s t
  i : t.i = s.i
  mem : SameMemory s t
  screen : SameScreen s t
  timers : SameTimers s t
  keyWait : SameKeyWait s t
  control : SameControl s t

/-- The frame of an instruction that writes only `I`, and perhaps registers, beside `PC`. -/
structure IndexAndRegistersOnly (s t : State) : Prop where
  stack : t.stack = s.stack
  mem : SameMemory s t
  screen : SameScreen s t
  timers : SameTimers s t
  keyWait : SameKeyWait s t
  control : SameControl s t

/-- The frame of an instruction that writes only memory, beside `PC`. -/
structure MemoryOnly (s t : State) : Prop where
  regs : SameRegs s t
  i : t.i = s.i
  stack : t.stack = s.stack
  screen : SameScreen s t
  timers : SameTimers s t
  keyWait : SameKeyWait s t
  control : SameControl s t

/-- The frame of an instruction that writes only the screen, and perhaps registers, beside `PC`. -/
structure ScreenAndRegistersOnly (s t : State) : Prop where
  i : t.i = s.i
  stack : t.stack = s.stack
  mem : SameMemory s t
  timers : SameTimers s t
  keyWait : SameKeyWait s t
  control : SameControl s t

/-- The frame of an event or instruction that writes only timers, beside `PC`. -/
structure TimersOnly (s t : State) : Prop where
  regs : SameRegs s t
  i : t.i = s.i
  stack : t.stack = s.stack
  mem : SameMemory s t
  screen : SameScreen s t
  keyWait : SameKeyWait s t
  control : SameControl s t

/-- The frame of an instruction that writes only the key-wait state, and perhaps registers, beside `PC`. -/
structure KeyWaitAndRegistersOnly (s t : State) : Prop where
  i : t.i = s.i
  stack : t.stack = s.stack
  mem : SameMemory s t
  screen : SameScreen s t
  timers : SameTimers s t
  control : SameControl s t

/-- The instruction takes a fault (60_exceptions.md R271): the latch is set with the record, and nothing else of the
state is changed, `PC` included (40_execute_cycle.md R125). -/
def TakesFault (i : Instr) (s : State) (cause : FaultCause) (addr : Option Word) : Prop :=
  exec i s = .next { s with
    halted := true
    fault := some { cause := cause, pc := s.pc, opcode := some (encode i), addr := addr } }

end Sys2Proof.Machine
end

