-- ==== Sys2Proof/Certificates/Slice0/Obligations.lean ====
section
/-! DEFINITION. The statements for the provers. -/

open Sys2Proof Sys2Proof.Machine

/-! ### Shapes the statements share -/

namespace Sys2Proof.Claims

/-- `i` completes, leaves the number `n` in register `x`, every other register and the rest of the state as before, and
`PC` at the next opcode. -/
def WritesReg (i : Instr) (s : State) (x : RegIdx) (n : Nat) : Prop :=
  ∃ t, exec i s = .next t ∧ (t.reg x).toNat = n ∧ SameRegsBut (· = x) s t ∧ t.pc = s.pc + 2 ∧ RegistersOnly s t

/-- `i` completes and writes the number `n` to register `x`, then the flag `f` to `VF`, the flag being what `VF` holds
whatever `x` is; every other register and the rest of the state is as before, and `PC` is at the next opcode. -/
def WritesThenFlag (i : Instr) (s : State) (x : RegIdx) (n f : Nat) : Prop :=
  ∃ t, exec i s = .next t ∧ (t.reg vf).toNat = f ∧ (x ≠ vf → (t.reg x).toNat = n) ∧
    SameRegsBut (fun j => j = x ∨ j = vf) s t ∧ t.pc = s.pc + 2 ∧ RegistersOnly s t

/-- `i` completes with `PC` past one more opcode if `c` holds, else at the next opcode, and changes nothing else. -/
def SkipsWhen (i : Instr) (s : State) (c : Prop) : Prop :=
  ∃ t, exec i s = .next t ∧ (c → t.pc = s.pc + 4) ∧ (¬ c → t.pc = s.pc + 2) ∧ SameRegs s t ∧ RegistersOnly s t

/-- `Pressed(v)` (42_skips.md R166): at most 15, and in the sampled set. -/
abbrev IsPressed (keys : Keys) (v : Byte) : Prop := v.toNat ≤ 15 ∧ keys.getLsbD v.toNat = true

/-- Key `k` is in the edge set of a wait (45_timers_and_keywait.md R234). -/
abbrev IsEdge (s : State) (k : Nat) : Prop :=
  if s.cfg.keywaitEdge = .release then s.kwPrev.getLsbD k = true ∧ s.env.keys.getLsbD k = false
  else s.kwPrev.getLsbD k = false ∧ s.env.keys.getLsbD k = true

/-- The stall of FX0A (R233, R236): `PC` stays, the sampled set becomes the previous one, the wait is on. -/
def KeepsWaiting (x : RegIdx) (s : State) : Prop :=
  ∃ t, exec (.ldVxK x) s = .next t ∧ t.pc = s.pc ∧ t.kwActive = true ∧ t.kwPrev = s.env.keys ∧
    SameRegs s t ∧ KeyWaitAndRegistersOnly s t

/-- The lowest address above 0xFFF of a range that begins at `base` and does not end in memory (20_memory.md R64). -/
def firstOutside (base : Word) : Word := if 0xFFF < base.toNat then base else 0x1000

/-- A set bit of the sprite of DXYN falls on pixel `(px, py)`, after wraparound (46_display.md R251, R252). -/
abbrev SpriteCovers (s : State) (x y : RegIdx) (n : Nat) (px : Fin 64) (py : Fin 32) : Prop :=
  ∃ r < n, ∃ c < 8, (s.mem.read (s.i.toNat + r)).getLsbD (7 - c) = true ∧
    ((s.reg x).toNat + c) % 64 = px.val ∧ ((s.reg y).toNat + r) % 32 = py.val

/-- The sprite of DXYN lies in memory; with `N = 0` no sprite is read (R251). -/
abbrev SpriteInMemory (s : State) (n : Nat) : Prop := n = 0 ∨ s.i.toNat + n - 1 ≤ 0xFFF

/-- The words of 30_encoding.md R98: by the class `op / 4096`, the low nibble `op % 16` and the low byte `op % 256`. -/
abbrev IllegalWord (op : Word) : Prop :=
  (op.toNat / 4096 = 0x0 ∧ op ≠ 0x00E0 ∧ op ≠ 0x00EE) ∨
  (op.toNat / 4096 = 0x5 ∧ op.toNat % 16 ≠ 0) ∨
  (op.toNat / 4096 = 0x8 ∧ op.toNat % 16 ∈ [0x8, 0x9, 0xA, 0xB, 0xC, 0xD, 0xF]) ∨
  (op.toNat / 4096 = 0x9 ∧ op.toNat % 16 ≠ 0) ∨
  (op.toNat / 4096 = 0xE ∧ op.toNat % 256 ∉ [0x9E, 0xA1]) ∨
  (op.toNat / 4096 = 0xF ∧ op.toNat % 256 ∉ [0x07, 0x0A, 0x15, 0x18, 0x1E, 0x29, 0x33, 0x55, 0x65])

/-- The numeric codes of the causes (60_exceptions.md R270). -/
def causeCode : FaultCause → Nat
  | .unsupportedOpcode => 1
  | .stackUnderflow => 2
  | .outOfBoundsAccess => 3
  | .stackOverflow => 4

/-- Runs instructions one after the other, each at the `PC` the one before left; none if one does not complete or the
core has halted. -/
def runAll : List Instr → State → Option State
  | [], s => some s
  | i :: is, s =>
    match exec i s with
    | .next t => if t.halted then none else runAll is t
    | _ => none

/-- `n` ticks. -/
def ticks : Nat → State → State
  | 0, s => s
  | n + 1, s => ticks n s.tick

/-- The instructions that can fault by their own rule (60_exceptions.md R274). -/
abbrev MayFault : Instr → Prop
  | .ret | .call _ | .drw _ _ _ | .ldB _ | .ldMemVx _ | .ldVxMem _ => True
  | _ => False

/-- The instructions that read `K` or `R` (40_execute_cycle.md R126). -/
abbrev ReadsInputs : Instr → Prop
  | .skp _ | .sknp _ | .ldVxK _ | .rnd _ _ => True
  | _ => False

end Sys2Proof.Claims

open Sys2Proof.Claims

/-! ### Encoding -/

/-- Decoding the word of a well-formed instruction gives it back, with every operand (R96, R97, R102). -/
def Obligations.DecodeInvertsEncode : Prop :=
  ∀ i : Instr, i.WellFormed → decode (encode i) = .ok i

/-- Each word has at most one meaning: what decodes to `i` is the word of `i`, and `i` is well formed (R96, R97). -/
def Obligations.EncodeInvertsDecode : Prop :=
  ∀ (op : Word) (i : Instr), decode op = .ok i → i.WellFormed ∧ encode i = op

/-- The decoder rejects exactly the illegal words of R98, by the word. Rests on the spec's decision D14. -/
def Obligations.DecodeRejectsExactlyIllegalWords : Prop :=
  ∀ op : Word, (IllegalWord op → decode op = .error (.unsupported op)) ∧
    (¬ IllegalWord op → ∃ i, decode op = .ok i)

/-- Words written out from the match and mask columns of R97, one of each format and more. -/
def Obligations.SampleWordsDecode : Prop :=
  decode 0x00EE = .ok .ret ∧ decode 0x2ABC = .ok (.call 0xABC) ∧ decode 0x7C5A = .ok (.addImm 0xC 0x5A) ∧
  decode 0x81F7 = .ok (.subn 0x1 0xF) ∧ decode 0xD9A5 = .ok (.drw 0x9 0xA 5) ∧ decode 0xEBA1 = .ok (.sknp 0xB) ∧
  decode 0xF265 = .ok (.ldVxMem 0x2)

/-! ### The step -/

/-- R120, R124: when the core is not halted, the next event is a Step, and the opcode at `PC` decodes to `i`, the step is
`exec` of `i` at that state with the event taken and `K`, `R` sampled. -/
def Obligations.StepRunsDecodedInstruction : Prop :=
  ∀ (s : State) (k : Keys) (r : Byte) (i : Instr), s.halted = false → s.nextEvent = .step k r →
    s.pc.toNat < 0xFFF →
    decode (bigEndian (s.mem.read s.pc.toNat) (s.mem.read (s.pc.toNat + 1))) = .ok i →
    step s = exec i (s.takeEvent.sample k r)

/-- A well-formed instruction whose word stands at `PC`, high byte first, is the one the step runs. -/
def Obligations.StepRunsEncodedInstruction : Prop :=
  ∀ (s : State) (k : Keys) (r : Byte) (i : Instr), i.WellFormed → s.halted = false → s.nextEvent = .step k r →
    s.pc.toNat < 0xFFF → s.mem.read s.pc.toNat = highByte (encode i) →
    s.mem.read (s.pc.toNat + 1) = lowByte (encode i) →
    step s = exec i (s.takeEvent.sample k r)

/-- R122: the fetch reads the byte at `a` as the high one and the byte at `a + 1` as the low one, both at most 0xFFF;
at 0xFFF or above the step raises OutOfBoundsAccess, and the state is otherwise the one before. Rests on the spec's
decision D8. -/
def Obligations.FetchIsBigEndianAndBounded : Prop :=
  ∀ (s : State) (k : Keys) (r : Byte),
    (s.pc.toNat < 0xFFF → ∃ op, fetch s = .ok op ∧
      op.toNat = (s.mem.read s.pc.toNat).toNat * 256 + (s.mem.read (s.pc.toNat + 1)).toNat) ∧
    (0xFFF ≤ s.pc.toNat → s.halted = false → s.nextEvent = .step k r →
      step s = .next { s.takeEvent.sample k r with
        halted := true
        fault := some
          { cause := .outOfBoundsAccess, pc := s.pc, opcode := none, addr := some (firstOutside s.pc) } })

/-- R98, R270, R271: a Step on an illegal word raises UnsupportedOpcode with the fetch address and the raw opcode, and
the state is otherwise the one before. Rests on the spec's decisions D8, D14. -/
def Obligations.IllegalWordHaltsWithRecord : Prop :=
  ∀ (s : State) (k : Keys) (r : Byte) (op : Word), s.halted = false → s.nextEvent = .step k r →
    fetch s = .ok op → IllegalWord op →
    step s = .next { s.takeEvent.sample k r with
      halted := true
      fault := some { cause := .unsupportedOpcode, pc := s.pc, opcode := some op, addr := none } }

/-- R121, R278: while halted a Step or a Tick changes no state; only the event is gone from the environment. Rests on
the spec's decision D9. -/
def Obligations.HaltedCoreChangesNothing : Prop :=
  ∀ s : State, s.halted = true →
    ((∃ k r, s.nextEvent = .step k r) → step s = .next s.takeEvent) ∧
    (s.nextEvent = .tick → step s = .next s.takeEvent)

/-- R276: a Tick, when not halted, counts each timer down unless it is 0, and changes nothing else. -/
def Obligations.TickCountsDown : Prop :=
  ∀ s : State, s.halted = false → s.nextEvent = .tick →
    ∃ t, step s = .next t ∧ t.dt.toNat = s.dt.toNat - 1 ∧ t.st.toNat = s.st.toNat - 1 ∧
      t.pc = s.pc ∧ TimersOnly s.takeEvent t

/-- R42, R301: `Reset(P)` with a configuration within the bounds of R5 and R302 gives every component its reset value.
Rests on the spec's decisions D2, D3, D4, D5, D8, D16, D21. -/
def Obligations.ResetGivesEveryComponent : Prop :=
  ∀ (s : State) (p : Config), s.nextEvent = .reset p → p.wf →
    ∃ t, step s = .next t ∧ t.cfg = p ∧ t.pc = 0x200 ∧ (∀ j, t.reg j = 0) ∧ t.i = 0 ∧ t.stack = [] ∧
      t.dt = 0 ∧ t.st = 0 ∧
      (∀ a, a < 0x50 → t.mem.read a = p.font.toList.getD a 0) ∧
      (∀ a, 0x50 ≤ a → a < 0x200 → t.mem.read a = 0) ∧
      (∀ j, j < p.rom.length → t.mem.read (0x200 + j) = p.rom.getD j 0) ∧
      (∀ a, 0x200 + p.rom.length ≤ a → t.mem.read a = 0) ∧
      (∀ x y, t.pixel x y = false) ∧ t.kwActive = false ∧ t.kwPrev = 0 ∧ t.halted = false ∧ t.fault = none

/-- R302: an oversized ROM is rejected and no core is built. Rests on the spec's decision D26. -/
def Obligations.OversizedRomIsRejected : Prop :=
  ∀ (s : State) (p : Config), s.nextEvent = .reset p → 3584 < p.rom.length → step s = .refused .romOversized

/-- `State.reset` is what `Reset(P)` builds from the default configuration with an empty ROM, under the environment the
model starts with (the model's choice, logs 2, 7 and 8). -/
def Obligations.ResetStateIsDefaultConstruction : Prop :=
  construct defaultConfig State.reset.env = .next State.reset

/-- R303: with an empty ROM the first Step reads 0x0000 and raises UnsupportedOpcode. (`P` is otherwise arbitrary.)
Rests on the spec's decisions D5, D8. -/
def Obligations.EmptyRomFaultsAtEntry : Prop :=
  ∀ (p : Config) (e : Env) (t : State) (k : Keys) (r : Byte), p.rom = [] → construct p e = .next t →
    t.nextEvent = .step k r →
    step t = .next { t.takeEvent.sample k r with
      halted := true
      fault := some { cause := .unsupportedOpcode, pc := 0x200, opcode := some 0x0000, addr := none } }

/-! ### Control flow (41_control_flow.md) -/

/-- R141, R143: JP goes to `NNN`, JP V0 to `NNN + V[0]`, not masked; nothing else changes and neither faults. Rests on
the spec's decision D13. -/
def Obligations.JumpsSetPc : Prop :=
  ∀ (s : State) (nnn : BitVec 12),
    (∃ t, exec (.jp nnn) s = .next t ∧ t.pc.toNat = nnn.toNat ∧ SameRegs s t ∧ RegistersOnly s t) ∧
    (∃ t, exec (.jpV0 nnn) s = .next t ∧ t.pc.toNat = nnn.toNat + (s.reg 0).toNat ∧ SameRegs s t ∧
      RegistersOnly s t)

/-- R142: CALL pushes the address after the call and goes to `NNN`; on a full stack it raises StackOverflow. Rests on
the spec's decisions D7, D8. -/
def Obligations.CallPushesReturnAddress : Prop :=
  ∀ (s : State) (nnn : BitVec 12),
    (s.stack.length ≠ s.cfg.stackDepth → ∃ t, exec (.call nnn) s = .next t ∧ t.stack = s.stack ++ [s.pc + 2] ∧
      t.pc.toNat = nnn.toNat ∧ StackOnly s t) ∧
    (s.stack.length = s.cfg.stackDepth → TakesFault (.call nnn) s .stackOverflow none)

/-- R140: RET pops the last pushed address into `PC`; on an empty stack it raises StackUnderflow. Rests on the spec's
decision D8. -/
def Obligations.ReturnPopsLastPushed : Prop :=
  ∀ s : State,
    (∀ st r, s.stack = st ++ [r] → ∃ t, exec .ret s = .next t ∧ t.pc = r ∧ t.stack = st ∧ StackOnly s t) ∧
    (s.stack = [] → TakesFault .ret s .stackUnderflow none)

/-- The stack law (R144): calls that the stack has room for, then as many returns, end at the opcode after the first
call, with everything else as before. -/
def Obligations.CallsThenReturnsComeBack : Prop :=
  ∀ (s : State) (targets : List (BitVec 12)), targets ≠ [] → s.halted = false →
    s.stack.length + targets.length ≤ s.cfg.stackDepth →
    runAll (targets.map Instr.call ++ List.replicate targets.length Instr.ret) s = some { s with pc := s.pc + 2 }

/-! ### Skips (42_skips.md) -/

/-- R160, R161: skips against an immediate. -/
def Obligations.ImmediateSkips : Prop :=
  ∀ (s : State) (x : RegIdx) (nn : Byte),
    SkipsWhen (.seImm x nn) s ((s.reg x).toNat = nn.toNat) ∧ SkipsWhen (.sneImm x nn) s ((s.reg x).toNat ≠ nn.toNat)

/-- R162, R163: skips between registers. -/
def Obligations.RegisterSkips : Prop :=
  ∀ (s : State) (x y : RegIdx),
    SkipsWhen (.seReg x y) s ((s.reg x).toNat = (s.reg y).toNat) ∧
    SkipsWhen (.sneReg x y) s ((s.reg x).toNat ≠ (s.reg y).toNat)

/-- R164, R165, R166: skips on a key, never pressed for a value above 15. Rests on the spec's decision D15. -/
def Obligations.KeySkips : Prop :=
  ∀ (s : State) (x : RegIdx),
    SkipsWhen (.skp x) s (IsPressed s.env.keys (s.reg x)) ∧ SkipsWhen (.sknp x) s (¬ IsPressed s.env.keys (s.reg x))

/-! ### Register loads and arithmetic (43_register_alu.md) -/

/-- R180, R182: load immediate and copy. -/
def Obligations.LoadsWriteTheirDestination : Prop :=
  ∀ (s : State) (x y : RegIdx) (nn : Byte),
    WritesReg (.ldImm x nn) s x nn.toNat ∧ WritesReg (.ldReg x y) s x (s.reg y).toNat

/-- R181: add immediate wraps at 8 bits and writes no flag. -/
def Obligations.AddImmediateWrapsWithoutFlag : Prop :=
  ∀ (s : State) (x : RegIdx) (nn : Byte), WritesReg (.addImm x nn) s x (((s.reg x).toNat + nn.toNat) % 256)

/-- R183, R184, R185: OR, AND, XOR, bit by bit, with `VF` written only as a destination. Rests on the spec's decision
D22. -/
def Obligations.LogicWritesNoFlag : Prop :=
  ∀ (s : State) (x y : RegIdx),
    WritesReg (.or x y) s x ((s.reg x).toNat ||| (s.reg y).toNat) ∧
    WritesReg (.and x y) s x ((s.reg x).toNat &&& (s.reg y).toNat) ∧
    WritesReg (.xor x y) s x ((s.reg x).toNat ^^^ (s.reg y).toNat)

/-- R186: the sum, then the carry. -/
def Obligations.AddSetsCarryLast : Prop :=
  ∀ (s : State) (x y : RegIdx),
    WritesThenFlag (.addReg x y) s x (((s.reg x).toNat + (s.reg y).toNat) % 256)
      (if (s.reg x).toNat + (s.reg y).toNat > 255 then 1 else 0)

/-- R187, R189: the difference, either way round, then not-borrow. -/
def Obligations.SubtractSetsNotBorrowLast : Prop :=
  ∀ (s : State) (x y : RegIdx),
    WritesThenFlag (.sub x y) s x (((s.reg x).toNat + 256 - (s.reg y).toNat) % 256)
      (if (s.reg x).toNat ≥ (s.reg y).toNat then 1 else 0) ∧
    WritesThenFlag (.subn x y) s x (((s.reg y).toNat + 256 - (s.reg x).toNat) % 256)
      (if (s.reg y).toNat ≥ (s.reg x).toNat then 1 else 0)

/-- R188, R190: shifts by one of `V[X]`, or of `V[Y]` under `P.shift_copy_vy`, then the bit shifted out. -/
def Obligations.ShiftsSetShiftedOutBitLast : Prop :=
  ∀ (s : State) (x y : RegIdx) (v : Nat),
    v = (if s.cfg.shiftCopyVy then (s.reg y).toNat else (s.reg x).toNat) →
    WritesThenFlag (.shr x y) s x (v / 2) (v % 2) ∧ WritesThenFlag (.shl x y) s x (v * 2 % 256) (v / 128)

/-- R191: the random byte of the step, masked. Rests on the spec's decision D20. -/
def Obligations.RandomIsMaskedInput : Prop :=
  ∀ (s : State) (x : RegIdx) (nn : Byte), WritesReg (.rnd x nn) s x (s.env.random.toNat &&& nn.toNat)

/-! ### Index and memory (44_index_and_memory.md) -/

/-- R210, R212: `I <- NNN`, and `I <- 5 * V[X]` without a mask. Rests on the spec's decision D24. -/
def Obligations.IndexLoads : Prop :=
  ∀ (s : State) (x : RegIdx) (nnn : BitVec 12),
    (∃ t, exec (.ldI nnn) s = .next t ∧ t.i.toNat = nnn.toNat ∧ t.pc = s.pc + 2 ∧ SameRegs s t ∧
      IndexAndRegistersOnly s t) ∧
    (∃ t, exec (.ldF x) s = .next t ∧ t.i.toNat = (s.reg x).toNat * 5 ∧ t.pc = s.pc + 2 ∧ SameRegs s t ∧
      IndexAndRegistersOnly s t)

/-- R211: `I` plus a register at 16 bits; `VF` tells whether the full sum exceeds 0xFFF, when `P.fx1e_sets_vf`. Rests
on the spec's decisions D11, D19. -/
def Obligations.AddIndexSetsOverflowFlag : Prop :=
  ∀ (s : State) (x : RegIdx), ∃ t, exec (.addI x) s = .next t ∧
    t.i.toNat = (s.i.toNat + (s.reg x).toNat) % 65536 ∧ t.pc = s.pc + 2 ∧ IndexAndRegistersOnly s t ∧
    SameRegsBut (fun j => s.cfg.fx1eSetsVf = true ∧ j = vf) s t ∧
    (s.cfg.fx1eSetsVf = true → (t.reg vf).toNat = if s.i.toNat + (s.reg x).toNat > 0xFFF then 1 else 0)

/-- R213: the three digits go to `I`, `I + 1`, `I + 2`, and no other byte changes. (Memory in canonical form, as the
invariant says.) Rests on the spec's decision D23. -/
def Obligations.BcdStoresThreeDigits : Prop :=
  ∀ (s : State) (x : RegIdx), s.mem.wf → s.i.toNat + 2 ≤ 0xFFF →
    ∃ t, exec (.ldB x) s = .next t ∧
      (t.mem.read s.i.toNat).toNat = (s.reg x).toNat / 100 ∧
      (t.mem.read (s.i.toNat + 1)).toNat = (s.reg x).toNat / 10 % 10 ∧
      (t.mem.read (s.i.toNat + 2)).toNat = (s.reg x).toNat % 10 ∧
      SameMemoryOutside s.i.toNat 3 s t ∧ t.pc = s.pc + 2 ∧ MemoryOnly s t

/-- R214: `V[0..X]` go to memory from `I`, and no other byte changes. (Memory in canonical form.) Rests on the spec's
decision D23. -/
def Obligations.StoreBlockWritesRegisters : Prop :=
  ∀ (s : State) (x : RegIdx), s.mem.wf → s.i.toNat + x.val ≤ 0xFFF →
    ∃ t, exec (.ldMemVx x) s = .next t ∧
      (∀ j : RegIdx, j ≤ x → t.mem.read (s.i.toNat + j.val) = s.reg j) ∧
      SameMemoryOutside s.i.toNat (x.val + 1) s t ∧ t.pc = s.pc + 2 ∧ MemoryOnly s t

/-- R215: `V[0..X]` come from memory at `I`, and no other register changes. Rests on the spec's decision D23. -/
def Obligations.LoadBlockReadsMemory : Prop :=
  ∀ (s : State) (x : RegIdx), s.i.toNat + x.val ≤ 0xFFF →
    ∃ t, exec (.ldVxMem x) s = .next t ∧
      (∀ j : RegIdx, j ≤ x → t.reg j = s.mem.read (s.i.toNat + j.val)) ∧
      SameRegsBut (fun j => j ≤ x) s t ∧ t.pc = s.pc + 2 ∧ RegistersOnly s t

/-- R64, R213, R214, R215, R251: a transfer whose range leaves memory raises OutOfBoundsAccess with the lowest address
above 0xFFF, and commits nothing. Rests on the spec's decisions D8, D21. -/
def Obligations.TransfersFaultOutsideMemory : Prop :=
  ∀ (s : State) (x y : RegIdx) (n : Nat),
    (0xFFF < s.i.toNat + 2 → TakesFault (.ldB x) s .outOfBoundsAccess (some (firstOutside s.i))) ∧
    (0xFFF < s.i.toNat + x.val →
      TakesFault (.ldMemVx x) s .outOfBoundsAccess (some (firstOutside s.i)) ∧
      TakesFault (.ldVxMem x) s .outOfBoundsAccess (some (firstOutside s.i))) ∧
    (0 < n → 0xFFF < s.i.toNat + n - 1 →
      TakesFault (.drw x y n) s .outOfBoundsAccess (some (firstOutside s.i)))

/-- R73: bytes FX55 stores over the next opcode are what the next fetch reads. (Memory in canonical form.) Rests on
the spec's decision D27. -/
def Obligations.StoreIsSeenByNextFetch : Prop :=
  ∀ (s : State) (x : RegIdx), s.mem.wf → 1 ≤ x.val → s.i.toNat = s.pc.toNat + 2 → s.i.toNat + x.val ≤ 0xFFF →
    ∃ t, exec (.ldMemVx x) s = .next t ∧ fetch t = .ok (bigEndian (s.reg 0) (s.reg 1))

/-! ### Timers and key wait (45_timers_and_keywait.md) -/

/-- R230, R231, R232: reading the delay timer and setting each timer. -/
def Obligations.TimerTransfers : Prop :=
  ∀ (s : State) (x : RegIdx),
    WritesReg (.ldVxDt x) s x s.dt.toNat ∧
    (∃ t, exec (.ldDtVx x) s = .next t ∧ t.dt = s.reg x ∧ t.st = s.st ∧ t.pc = s.pc + 2 ∧ TimersOnly s t) ∧
    (∃ t, exec (.ldStVx x) s = .next t ∧ t.st = s.reg x ∧ t.dt = s.dt ∧ t.pc = s.pc + 2 ∧ TimersOnly s t)

/-- R306: FX15 sets `v`, `n` ticks pass, FX07 reads `max(v - n, 0)`. -/
def Obligations.DelayTimerReadsRemainder : Prop :=
  ∀ (s : State) (x y : RegIdx) (n : Nat), s.halted = false →
    ∃ t u, exec (.ldDtVx x) s = .next t ∧ exec (.ldVxDt y) (ticks n t) = .next u ∧
      (u.reg y).toNat = (s.reg x).toNat - n

/-- R39, R232: the tone is on exactly while the sound timer is not 0 and the core is not halted; after FX18 sets `v`
it is on for exactly `v` ticks. Rests on the spec's decision D32. -/
def Obligations.ToneLastsSoundTimerTicks : Prop :=
  ∀ (s : State) (x : RegIdx) (n : Nat),
    (s.toneEn = true ↔ s.st ≠ 0 ∧ s.halted = false) ∧
    (s.halted = false → ∃ t, exec (.ldStVx x) s = .next t ∧
      ((ticks n t).toneEn = true ↔ n < (s.reg x).toNat))

/-- R233, R234, R235, R236: FX0A begins a wait, goes on waiting without an edge, and completes on an edge with the
lowest key of the edge set. Rests on the spec's decisions D16, D17. -/
def Obligations.KeyWaitCompletesOnEdge : Prop :=
  ∀ (s : State) (x : RegIdx),
    (s.kwActive = false → KeepsWaiting x s) ∧
    (s.kwActive = true → (∀ k < 16, ¬ IsEdge s k) → KeepsWaiting x s) ∧
    (∀ k < 16, s.kwActive = true → IsEdge s k → (∀ j < k, ¬ IsEdge s j) →
      ∃ t, exec (.ldVxK x) s = .next t ∧ (t.reg x).toNat = k ∧ SameRegsBut (· = x) s t ∧
        t.kwActive = false ∧ t.kwPrev = 0 ∧ t.pc = s.pc + 2 ∧ KeyWaitAndRegistersOnly s t)

/-! ### Display (46_display.md) -/

/-- R250: every pixel off, `VF` and everything else as before. -/
def Obligations.ClearTurnsEveryPixelOff : Prop :=
  ∀ s : State, ∃ t, exec .cls s = .next t ∧ (∀ x y, t.pixel x y = false) ∧ SameRegs s t ∧ t.pc = s.pc + 2 ∧
    ScreenAndRegistersOnly s t

/-- R251, R252: the pixels under a set sprite bit flip and no others; `VF` is 1 exactly if one of them was lit. Rests
on the spec's decision D21. -/
def Obligations.DrawFlipsSpriteAndReportsCollision : Prop :=
  ∀ (s : State) (x y : RegIdx) (n : Nat), n ≤ 15 → SpriteInMemory s n →
    ∃ t, exec (.drw x y n) s = .next t ∧
      (∀ px py, SpriteCovers s x y n px py → t.pixel px py = !s.pixel px py) ∧
      (∀ px py, ¬ SpriteCovers s x y n px py → t.pixel px py = s.pixel px py) ∧
      ((∃ px py, SpriteCovers s x y n px py ∧ s.pixel px py = true) → t.reg vf = 1) ∧
      ((¬ ∃ px py, SpriteCovers s x y n px py ∧ s.pixel px py = true) → t.reg vf = 0) ∧
      SameRegsBut (· = vf) s t ∧ t.pc = s.pc + 2 ∧ ScreenAndRegistersOnly s t

/-- R253: drawing the same sprite twice restores the screen, and the second draw reports a collision exactly when the
first turned a pixel on. -/
def Obligations.DrawTwiceRestoresScreen : Prop :=
  ∀ (s : State) (x y : RegIdx) (n : Nat), n ≤ 15 → x ≠ vf → y ≠ vf → SpriteInMemory s n →
    ∃ t u, exec (.drw x y n) s = .next t ∧ exec (.drw x y n) t = .next u ∧ u.fb = s.fb ∧
      (u.reg vf = 1 ↔ ∃ px py, s.pixel px py = false ∧ t.pixel px py = true)

/-! ### Whole-machine rules -/

/-- Every instruction of the table completes or takes a fault the spec describes: none stops the model. -/
def Obligations.EveryInstructionAnswersNext : Prop :=
  ∀ (i : Instr) (s : State), ∃ t, exec i s = .next t

/-- A Step or a Tick never stops the model. -/
def Obligations.StepsAndTicksAnswerNext : Prop :=
  ∀ s : State, (∀ p, s.nextEvent ≠ .reset p) → ∃ t, step s = .next t

/-- R125, R271, R272: if an instruction halts a running core, it changed nothing but the latch, and the record names
its own word at the fetch address, with an address exactly for OutOfBoundsAccess. Rests on the spec's decision D8. -/
def Obligations.FaultingInstructionCommitsNothing : Prop :=
  ∀ (i : Instr) (s t : State), exec i s = .next t → s.halted = false → t.halted = true →
    ∃ cause addr, TakesFault i s cause addr ∧ (addr.isSome = true ↔ cause = .outOfBoundsAccess) ∧
      (∀ a, addr = some a → 0xFFF < a.toNat)

/-- R270, R274: an instruction without a fault of its own leaves the latch alone. -/
def Obligations.OtherInstructionsNeverFault : Prop :=
  ∀ (i : Instr) (s t : State), ¬ MayFault i → exec i s = .next t → t.halted = s.halted ∧ t.fault = s.fault

/-- R32: only CALL and RET touch the stack. -/
def Obligations.OnlyCallAndReturnTouchStack : Prop :=
  ∀ (i : Instr) (s t : State), exec i s = .next t → t.stack ≠ s.stack → i = .ret ∨ ∃ nnn, i = .call nnn

/-- R60: only FX33 and FX55 change memory, and only bytes from `I` on: 3, and `X + 1`. (Memory in canonical form.) -/
def Obligations.OnlyBcdAndStoreBlockChangeMemory : Prop :=
  ∀ (i : Instr) (s t : State) (a : Nat), s.mem.wf → exec i s = .next t → t.mem.read a ≠ s.mem.read a →
    a ≤ 0xFFF ∧ s.i.toNat ≤ a ∧
      ((∃ x, i = .ldB x ∧ a < s.i.toNat + 3) ∨ ∃ x : RegIdx, i = .ldMemVx x ∧ a ≤ s.i.toNat + x.val)

/-- R27, R29, R30, R34: the only instructions that write `I`, `DT`, `ST` and the key-wait state. -/
def Obligations.WritersOfSpecialRegisters : Prop :=
  ∀ (i : Instr) (s t : State), exec i s = .next t →
    (t.i ≠ s.i → (∃ nnn, i = .ldI nnn) ∨ (∃ x, i = .addI x) ∨ ∃ x, i = .ldF x) ∧
    (t.dt ≠ s.dt → ∃ x, i = .ldDtVx x) ∧
    (t.st ≠ s.st → ∃ x, i = .ldStVx x) ∧
    (t.kwActive ≠ s.kwActive ∨ t.kwPrev ≠ s.kwPrev → ∃ x, i = .ldVxK x) ∧
    (t.fb ≠ s.fb → i = .cls ∨ ∃ x y n, i = .drw x y n)

/-- R5, R300: no Step and no Tick changes the configuration. -/
def Obligations.ConfigurationIsFixed : Prop :=
  ∀ s t : State, (∀ p, s.nextEvent ≠ .reset p) → step s = .next t → t.cfg = s.cfg

/-- R126: an instruction other than CXNN, EX9E, EXA1 and FX0A reads neither `R` nor `K`: with other inputs it does the
same. Rests on the spec's decision D15. -/
def Obligations.OtherInstructionsIgnoreInputs : Prop :=
  ∀ (i : Instr) (s t : State) (k : Keys) (r : Byte), ¬ ReadsInputs i → exec i s = .next t →
    exec i (s.sample k r) = .next (t.sample k r)

/-- R38, R39, R270, R272, in every state: with a record latched the fault ports show its cause by the code of R270, its
`pc`, and its opcode and address, or 0 with the valid bit 0 where there is none (a fetch fault has no opcode); with no
record every fault port is 0. The tone is off while halted. Rests on the spec's decisions D1, D10, D32. -/
def Obligations.FaultPortsShowRecord : Prop :=
  ∀ s : State, s.haltedPort = s.halted ∧ (s.halted = true → s.toneEn = false) ∧
    (∀ r, s.fault = some r →
      s.faultCausePort.toNat = causeCode r.cause ∧ s.faultPcPort = r.pc ∧
      (∀ op, r.opcode = some op → s.faultOpcodeValid = true ∧ s.faultOpcodePort = op) ∧
      (r.opcode = none → s.faultOpcodeValid = false ∧ s.faultOpcodePort = 0) ∧
      (∀ a, r.addr = some a → s.faultAddrValid = true ∧ s.faultAddrPort = a) ∧
      (r.addr = none → s.faultAddrValid = false ∧ s.faultAddrPort = 0)) ∧
    (s.fault = none →
      s.faultCausePort = 0 ∧ s.faultPcPort = 0 ∧ s.faultOpcodeValid = false ∧ s.faultOpcodePort = 0 ∧
      s.faultAddrValid = false ∧ s.faultAddrPort = 0)

/-- The invariant holds at reset. -/
def Obligations.InvHoldsAtReset : Prop := State.reset.Inv

/-- Every event keeps the invariant: the canonical form of memory, the stack bound, the largest `PC`, the latch and its
record, the key-wait state and its FX0A, and the configuration. -/
def Obligations.EveryStepKeepsInv : Prop :=
  ∀ s t : State, s.Inv → step s = .next t → t.Inv

/-- R237: while a wait is on, the next Step runs an FX0A. -/
def Obligations.WaitIsContinuedByKeyWait : Prop :=
  ∀ (s : State) (k : Keys) (r : Byte), s.Inv → s.kwActive = true → s.nextEvent = .step k r →
    ∃ x, step s = exec (.ldVxK x) (s.takeEvent.sample k r)

/-- R38, R39, R270, R272: after an instruction takes a fault of its own (StackUnderflow, StackOverflow or
OutOfBoundsAccess on its data) the ports show the cause's code, the fetch address, the instruction's word and the
address, and the tone is off. Rests on the spec's decisions D1, D8, D10, D32. -/
def Obligations.InstructionFaultShowsOnPorts : Prop :=
  ∀ (i : Instr) (s t : State) (cause : FaultCause) (addr : Option Word), TakesFault i s cause addr →
    exec i s = .next t →
    t.haltedPort = true ∧ t.faultCausePort.toNat = causeCode cause ∧ t.faultPcPort = s.pc ∧
      t.faultOpcodeValid = true ∧ t.faultOpcodePort = encode i ∧
      t.faultAddrValid = addr.isSome ∧ t.faultAddrPort = addr.getD 0 ∧ t.toneEn = false
end

