-- ==== Sys2Proof/Laws/Encoding.lean ====
section
/-! SUPPORT. The fields of the encoded formats (30_encoding.md R91, R92), and the words of memory bytes. -/

namespace Sys2Proof

/-! ### Bits of the formats -/

theorem getLsbD_encNNN (c : BitVec 4) (a : BitVec 12) (j : Nat) :
    (encNNN c a).getLsbD j = if j < 12 then a.getLsbD j else c.getLsbD (j - 12) :=
  BitVec.getLsbD_append

theorem getLsbD_encXNN (c : BitVec 4) (x : RegIdx) (nn : Byte) (j : Nat) :
    (encXNN c x nn).getLsbD j =
      if j < 8 then nn.getLsbD j else if j < 12 then x.val.testBit (j - 8) else c.getLsbD (j - 12) := by
  have h : (BitVec.ofFin (w := 4) x ++ nn : BitVec 12).getLsbD j =
      if j < 8 then nn.getLsbD j else (BitVec.ofFin (w := 4) x).getLsbD (j - 8) := BitVec.getLsbD_append
  rw [encXNN, getLsbD_encNNN, h, BitVec.getLsbD_ofFin]
  split_ifs <;> first | rfl | omega

theorem getLsbD_encXYN (c : BitVec 4) (x y : RegIdx) (n : BitVec 4) (j : Nat) :
    (encXYN c x y n).getLsbD j =
      if j < 4 then n.getLsbD j else if j < 8 then y.val.testBit (j - 4)
      else if j < 12 then x.val.testBit (j - 8) else c.getLsbD (j - 12) := by
  have h : (BitVec.ofFin (w := 4) y ++ n : BitVec 8).getLsbD j =
      if j < 4 then n.getLsbD j else (BitVec.ofFin (w := 4) y).getLsbD (j - 4) := BitVec.getLsbD_append
  rw [encXYN, getLsbD_encXNN, h, BitVec.getLsbD_ofFin]
  split_ifs <;> first | rfl | omega

theorem getLsbD_bigEndian (hi lo : Byte) (j : Nat) :
    (bigEndian hi lo).getLsbD j = if j < 8 then lo.getLsbD j else hi.getLsbD (j - 8) :=
  BitVec.getLsbD_append

/-- A bit of a register field. -/
theorem testBit_opX (op : Word) (j : Nat) : (opX op).val.testBit j = (decide (j < 4) && op.getLsbD (8 + j)) := by
  rw [← BitVec.getLsbD_extractLsb' (start := 8) (len := 4)]; rfl

theorem testBit_opY (op : Word) (j : Nat) : (opY op).val.testBit j = (decide (j < 4) && op.getLsbD (4 + j)) := by
  rw [← BitVec.getLsbD_extractLsb' (start := 4) (len := 4)]; rfl

/-! ### Fields of the encoded formats -/

@[simp] theorem opClass_encNNN (c : BitVec 4) (a : BitVec 12) : opClass (encNNN c a) = c := by
  apply BitVec.eq_of_getLsbD_eq
  intro j hj
  simp [opClass, getLsbD_encNNN, hj]

@[simp] theorem opNNN_encNNN (c : BitVec 4) (a : BitVec 12) : opNNN (encNNN c a) = a := by
  apply BitVec.eq_of_getLsbD_eq
  intro j hj
  simp [opNNN, getLsbD_encNNN, hj]

@[simp] theorem opClass_encXNN (c : BitVec 4) (x : RegIdx) (nn : Byte) : opClass (encXNN c x nn) = c := by
  simp [encXNN]

@[simp] theorem opX_encXNN (c : BitVec 4) (x : RegIdx) (nn : Byte) : opX (encXNN c x nn) = x := by
  apply Fin.ext
  apply Nat.eq_of_testBit_eq
  intro j
  rw [testBit_opX, getLsbD_encXNN]
  by_cases hj : j < 4
  · have h : 8 + j < 12 := by omega
    simp [hj, h]
  · have : x.val < 2 ^ j := lt_of_lt_of_le x.isLt (Nat.pow_le_pow_right (n := 2) (i := 4) (by decide) (by omega))
    simp [hj, Nat.testBit_lt_two_pow this]

@[simp] theorem opNN_encXNN (c : BitVec 4) (x : RegIdx) (nn : Byte) : opNN (encXNN c x nn) = nn := by
  apply BitVec.eq_of_getLsbD_eq
  intro j hj
  simp [opNN, getLsbD_encXNN, hj]

@[simp] theorem opClass_encXYN (c : BitVec 4) (x y : RegIdx) (n : BitVec 4) : opClass (encXYN c x y n) = c := by
  simp [encXYN]

@[simp] theorem opX_encXYN (c : BitVec 4) (x y : RegIdx) (n : BitVec 4) : opX (encXYN c x y n) = x := by
  simp [encXYN]

@[simp] theorem opY_encXYN (c : BitVec 4) (x y : RegIdx) (n : BitVec 4) : opY (encXYN c x y n) = y := by
  apply Fin.ext
  apply Nat.eq_of_testBit_eq
  intro j
  rw [testBit_opY, getLsbD_encXYN]
  by_cases hj : j < 4
  · have h : 4 + j < 8 := by omega
    simp [hj, h]
  · have : y.val < 2 ^ j := lt_of_lt_of_le y.isLt (Nat.pow_le_pow_right (n := 2) (i := 4) (by decide) (by omega))
    simp [hj, Nat.testBit_lt_two_pow this]

@[simp] theorem opN_encXYN (c : BitVec 4) (x y : RegIdx) (n : BitVec 4) : opN (encXYN c x y n) = n := by
  apply BitVec.eq_of_getLsbD_eq
  intro j hj
  simp [opN, getLsbD_encXYN, hj]

/-! ### A word is put together from its fields -/

theorem encNNN_fields (op : Word) : encNNN (opClass op) (opNNN op) = op := by
  apply BitVec.eq_of_getLsbD_eq
  intro j hj
  simp only [getLsbD_encNNN, opClass, opNNN, BitVec.getLsbD_extractLsb']
  split_ifs with h
  · simp [h]
  · have h1 : j - 12 < 4 := by omega
    have h2 : 12 + (j - 12) = j := by omega
    simp [h1, h2]

theorem encXNN_fields (op : Word) : encXNN (opClass op) (opX op) (opNN op) = op := by
  apply BitVec.eq_of_getLsbD_eq
  intro j hj
  simp only [getLsbD_encXNN, opClass, opNN, testBit_opX, BitVec.getLsbD_extractLsb']
  split_ifs with h h'
  · simp [h]
  · have h1 : j - 8 < 4 := by omega
    have h2 : 8 + (j - 8) = j := by omega
    simp [h1, h2]
  · have h1 : j - 12 < 4 := by omega
    have h2 : 12 + (j - 12) = j := by omega
    simp [h1, h2]

theorem encXYN_fields (op : Word) : encXYN (opClass op) (opX op) (opY op) (opN op) = op := by
  apply BitVec.eq_of_getLsbD_eq
  intro j hj
  simp only [getLsbD_encXYN, opClass, opN, testBit_opX, testBit_opY, BitVec.getLsbD_extractLsb']
  split_ifs with h h' h''
  · simp [h]
  · have h1 : j - 4 < 4 := by omega
    have h2 : 4 + (j - 4) = j := by omega
    simp [h1, h2]
  · have h1 : j - 8 < 4 := by omega
    have h2 : 8 + (j - 8) = j := by omega
    simp [h1, h2]
  · have h1 : j - 12 < 4 := by omega
    have h2 : 12 + (j - 12) = j := by omega
    simp [h1, h2]

/-! ### The fields as numbers -/

theorem toNat_opClass (op : Word) : (opClass op).toNat = op.toNat / 4096 := by
  simp [opClass, BitVec.extractLsb'_toNat, Nat.shiftRight_eq_div_pow]; omega

theorem toNat_opN (op : Word) : (opN op).toNat = op.toNat % 16 := by
  simp [opN, BitVec.extractLsb'_toNat]

theorem toNat_opNN (op : Word) : (opNN op).toNat = op.toNat % 256 := by
  simp [opNN, BitVec.extractLsb'_toNat]

/-! ### Bytes and words (20_memory.md R61) -/

/-- The two bytes of a word, put together, give it back. -/
@[simp] theorem bigEndian_bytes (op : Word) : bigEndian (highByte op) (lowByte op) = op := by
  apply BitVec.eq_of_getLsbD_eq
  intro j hj
  simp only [getLsbD_bigEndian, highByte, lowByte, BitVec.getLsbD_extractLsb']
  split_ifs with h
  · simp [h]
  · have h1 : j - 8 < 8 := by omega
    have h2 : 8 + (j - 8) = j := by omega
    simp [h1, h2]

/-- The opcode as a number: the byte at the lower address is the high one. -/
theorem bigEndian_toNat (hi lo : Byte) : (bigEndian hi lo).toNat = hi.toNat * 256 + lo.toNat := by
  have h : (bigEndian hi lo).toNat = hi.toNat <<< 8 ||| lo.toNat := BitVec.toNat_append hi lo
  rw [h, ← Nat.shiftLeft_add_eq_or_of_lt lo.isLt, Nat.shiftLeft_eq]

/-- The decoder on the two bytes of a word. -/
@[simp] theorem decodeBytes_bytes (op : Word) (rest : List Byte) :
    decodeBytes (highByte op :: lowByte op :: rest) = (decode op).map (·, rest) := by
  simp [decodeBytes]

/-- What the decoder reads from an opcode-table word is what it reads from the word itself. -/
theorem decodeTableWord_eq (nbits w : Nat) : decodeTableWord nbits w = (decode (tableWord nbits w)).toOption := by
  rw [decodeTableWord, decodeBytes_bytes]
  cases decode (tableWord nbits w) <;> rfl

end Sys2Proof
end

