-- ==== Sys2Proof/Laws/Memory.lean ====
section
/-! SUPPORT. What every memory operation does to a read, and that each keeps the canonical form (20_memory.md R60,
R64, R66, R70). -/

namespace Sys2Proof.Machine

namespace Memory

@[simp] theorem read_nil (a : Nat) : read [] a = unlisted a := rfl

/-- Outside the glyph region an unlisted cell reads 0x00. -/
theorem unlisted_of_le {a : Nat} (h : 80 ≤ a) : unlisted a = 0 := by
  have : defaultGlyphs.length = 80 := by decide
  simp [unlisted, List.getElem?_eq_none (by omega : defaultGlyphs.length ≤ a)]

/-- A read that no listed cell answers is the unlisted one. -/
theorem read_of_lt {m : Memory} {a : Nat} (h : ∀ c ∈ m, a < c.1) : read m a = unlisted a := by
  induction m with
  | nil => rfl
  | cons c m ih =>
    have := h c (by simp)
    rw [read, if_neg (by omega)]
    exact ih fun d hd => h d (by simp [hd])

theorem read_cell_append (m : Memory) (a : Nat) (b : Byte) (k : Nat) (h : ∀ c ∈ m, a < c.1) :
    read (cell a b ++ m) k = if k = a then b else read m k := by
  unfold cell
  split
  · rename_i hb
    split
    · rename_i hk; subst hk; simp [read_of_lt h, hb]
    · rfl
  · simp only [List.cons_append, List.nil_append, read, eq_comm]

theorem wf_tail {c : Host.Cell} {m : Memory} (h : wf (c :: m)) : wf m :=
  ⟨(List.pairwise_cons.mp h.1).2, fun d hd => h.2 d (by simp [hd])⟩

theorem lt_of_wf {c : Host.Cell} {m : Memory} (h : wf (c :: m)) : ∀ d ∈ m, c.1 < d.1 :=
  (List.pairwise_cons.mp h.1).1

/-- The one law of a store in a canonical listing: it changes the read of its address and no other. -/
theorem read_put {m : Memory} (h : wf m) (a : Nat) (b : Byte) (k : Nat) :
    read (put m a b) k = if k = a then b else read m k := by
  induction m with
  | nil => simpa [put] using read_cell_append [] a b k (by simp)
  | cons c m ih =>
    obtain ⟨q, d⟩ := c
    have hlt := lt_of_wf h
    rw [put]
    by_cases h1 : a < q
    · rw [if_pos h1]
      refine read_cell_append _ _ _ _ fun e he => ?_
      rcases List.mem_cons.mp he with rfl | he
      · exact h1
      · exact lt_trans h1 (hlt e he)
    · rw [if_neg h1]
      by_cases h2 : a = q
      · subst h2
        rw [if_pos rfl, read_cell_append _ _ _ _ hlt, read]
        split_ifs <;> first | rfl | omega
      · rw [if_neg h2, read, read, ih (wf_tail h)]
        split_ifs <;> first | rfl | omega

theorem mem_cell {a : Nat} {b : Byte} {c : Host.Cell} (h : c ∈ cell a b) : c = (a, b) ∧ b ≠ unlisted a := by
  unfold cell at h
  split at h <;> simp_all

theorem mem_put {m : Memory} {a : Nat} {b : Byte} {c : Host.Cell} (h : c ∈ put m a b) :
    c ∈ m ∨ (c = (a, b) ∧ b ≠ unlisted a) := by
  induction m with
  | nil => exact .inr (mem_cell h)
  | cons d m ih =>
    obtain ⟨q, e⟩ := d
    rw [put] at h
    split_ifs at h
    · rcases List.mem_append.mp h with h | h
      · exact .inr (mem_cell h)
      · exact .inl h
    · rcases List.mem_append.mp h with h | h
      · exact .inr (mem_cell h)
      · exact .inl (by simp [h])
    · rcases List.mem_cons.mp h with h | h
      · exact .inl (by simp [h])
      · rcases ih h with h | h
        · exact .inl (by simp [h])
        · exact .inr h

theorem pairwise_cell_append {m : Memory} {a : Nat} {b : Byte} (hm : m.Pairwise fun c d => c.1 < d.1)
    (h : ∀ c ∈ m, a < c.1) : (cell a b ++ m).Pairwise fun c d => c.1 < d.1 := by
  rw [List.pairwise_append]
  refine ⟨by unfold cell; split <;> simp, hm, fun c hc d hd => ?_⟩
  rw [(mem_cell hc).1]
  exact h d hd

theorem wf_put {m : Memory} (h : wf m) {a : Nat} (ha : a < memSize) (b : Byte) : wf (put m a b) := by
  refine ⟨?_, fun c hc => ?_⟩
  · induction m with
    | nil => simpa [put] using pairwise_cell_append (m := []) (a := a) (b := b) .nil (by simp)
    | cons c m ih =>
      obtain ⟨q, d⟩ := c
      have hlt := lt_of_wf h
      rw [put]
      split_ifs with h1 h2
      · exact pairwise_cell_append h.1 (by
          intro e he
          rcases List.mem_cons.mp he with rfl | he
          · exact h1
          · exact lt_trans h1 (hlt e he))
      · subst h2
        exact pairwise_cell_append (wf_tail h).1 hlt
      · refine List.pairwise_cons.mpr ⟨fun e he => ?_, ih (wf_tail h)⟩
        rcases mem_put he with he | he
        · exact hlt e he
        · rw [he.1]; show q < a; omega
  · rcases mem_put hc with hc | ⟨rfl, hb⟩
    · exact h.2 c hc
    · exact ⟨ha, hb⟩

/-- Read after write (R70): the written address answers the byte, every other address as before. -/
theorem read_write {m : Memory} (h : wf m) (a : Nat) (b : Byte) (k : Nat) :
    read (write m a b) k = if k = a ∧ a < memSize then b else read m k := by
  unfold write
  split_ifs with h1 h2 h2
  · rw [read_put h, if_pos h2.1]
  · rw [read_put h, if_neg (fun e => h2 ⟨e, h1⟩)]
  · exact absurd h2.2 h1
  · rfl

theorem wf_write {m : Memory} (h : wf m) (a : Nat) (b : Byte) : wf (write m a b) := by
  unfold write
  split
  · exact wf_put h ‹_› b
  · exact h

theorem wf_writeBytes {m : Memory} (h : wf m) (a : Nat) (bs : List Byte) : wf (writeBytes m a bs) := by
  induction bs generalizing m a with
  | nil => exact h
  | cons b bs ih => exact ih (wf_write h a b) (a + 1)

/-- What a block of writes that fits in memory leaves: the block's bytes at its addresses, every other byte as
before. -/
theorem read_writeBytes {m : Memory} (h : wf m) (a : Nat) (bs : List Byte) (hfit : a + bs.length ≤ memSize) (k : Nat) :
    read (writeBytes m a bs) k = if a ≤ k ∧ k < a + bs.length then bs.getD (k - a) 0 else read m k := by
  induction bs generalizing m a with
  | nil => simp only [writeBytes, List.length_nil]; rw [if_neg (by omega)]
  | cons b bs ih =>
    simp only [List.length_cons] at hfit ⊢
    rw [writeBytes, ih (wf_write h a b) (a + 1) (by omega), read_write h]
    by_cases hk : k = a
    · subst hk
      rw [if_neg (by omega), if_pos ⟨rfl, by omega⟩, if_pos (by omega)]
      simp
    · rw [if_neg (by tauto : ¬ (k = a ∧ a < memSize))]
      by_cases h1 : a + 1 ≤ k ∧ k < a + 1 + bs.length
      · rw [if_pos h1, if_pos (by omega)]
        obtain ⟨j, rfl⟩ : ∃ j, k = a + 1 + j := ⟨k - (a + 1), by omega⟩
        have e1 : a + 1 + j - (a + 1) = j := by omega
        have e2 : a + 1 + j - a = j + 1 := by omega
        rw [e1, e2]
        simp
      · rw [if_neg h1, if_neg (by omega)]

@[simp] theorem length_readBytes (m : Memory) (a n : Nat) : (readBytes m a n).length = n := by
  induction n generalizing a with
  | zero => rfl
  | succ n ih => simp [readBytes, ih]

theorem getElem?_readBytes (m : Memory) (a n j : Nat) (h : j < n) :
    (readBytes m a n)[j]? = some (read m (a + j)) := by
  induction n generalizing a j with
  | zero => omega
  | succ n ih =>
    cases j with
    | zero => rfl
    | succ j =>
      rw [readBytes, List.getElem?_cons_succ, ih (a + 1) j (by omega)]
      congr 2; omega

/-- Equal reads, equal memories: the canonical form is one. -/
theorem eq_of_read_eq {m n : Memory} (hm : wf m) (hn : wf n) (h : ∀ a, read m a = read n a) : m = n := by
  induction m generalizing n with
  | nil =>
    cases n with
    | nil => rfl
    | cons d n =>
      have := h d.1
      rw [read_nil, read, if_pos rfl] at this
      exact absurd this.symm (hn.2 d (by simp)).2
  | cons c m ih =>
    cases n with
    | nil =>
      have := h c.1
      rw [read_nil, read, if_pos rfl] at this
      exact absurd this (hm.2 c (by simp)).2
    | cons d n =>
      have hc := lt_of_wf hm
      have hd := lt_of_wf hn
      have key : c.1 = d.1 := by
        rcases lt_trichotomy c.1 d.1 with hlt | heq | hlt
        · have := h c.1
          rw [read, if_pos rfl, read_of_lt (m := d :: n)] at this
          · exact absurd this (hm.2 c (by simp)).2
          · intro e he
            rcases List.mem_cons.mp he with rfl | he
            · exact hlt
            · exact lt_trans hlt (hd e he)
        · exact heq
        · have := h d.1
          rw [read_of_lt (m := c :: m), read, if_pos rfl] at this
          · exact absurd this.symm (hn.2 d (by simp)).2
          · intro e he
            rcases List.mem_cons.mp he with rfl | he
            · exact hlt
            · exact lt_trans hlt (hc e he)
      have hv : c.2 = d.2 := by
        have := h c.1
        rw [read, if_pos rfl, read, if_pos key.symm] at this
        exact this
      have hcd : c = d := Prod.ext key hv
      subst hcd
      congr 1
      refine ih (wf_tail hm) (wf_tail hn) fun a => ?_
      by_cases ha : a ≤ c.1
      · rw [read_of_lt fun e he => lt_of_le_of_lt ha (hc e he), read_of_lt fun e he => lt_of_le_of_lt ha (hd e he)]
      · have := h a
        rwa [read, read, if_neg (by omega), if_neg (by omega)] at this

end Memory

theorem wf_nil : Memory.wf [] := by decide

/-- Reset leaves memory in canonical form (70_reset_and_hazards.md R301). -/
theorem initialMemory_wf (p : Config) : (initialMemory p).wf :=
  Memory.wf_writeBytes (Memory.wf_writeBytes wf_nil _ _) _ _

/-- Memory after reset, byte by byte (R301). -/
theorem read_initialMemory (p : Config) (h : p.rom.length ≤ romCapacity) (a : Nat) :
    (initialMemory p).read a =
      if 0x200 ≤ a ∧ a < 0x200 + p.rom.length then p.rom.getD (a - 0x200) 0
      else if a < 80 then p.font.toList.getD a 0 else 0 := by
  have h80 : p.font.toList.length = 80 := by simp
  rw [initialMemory, Memory.read_writeBytes (Memory.wf_writeBytes wf_nil _ _) _ _ (by simp only [romCapacity] at h; show 512 + _ ≤ 4096; omega),
    Memory.read_writeBytes wf_nil _ _ (by rw [h80]; decide)]
  simp only [h80, Nat.zero_add, Nat.sub_zero, Nat.zero_le, true_and, BitVec.reduceToNat, entryPoint]
  by_cases h1 : 0x200 ≤ a ∧ a < 0x200 + p.rom.length
  · rw [if_pos (by simpa using h1), if_pos h1]
  · rw [if_neg (by simpa using h1), if_neg h1]
    split
    · rfl
    · exact Memory.unlisted_of_le (by omega)

/-- The default font is what unlisted cells of the glyph region read as (log 7). -/
theorem getD_defaultFont (a : Nat) : defaultFont.toList.getD a 0 = Memory.unlisted a := by
  by_cases h : a < 80
  · simp [defaultFont, Memory.unlisted, h]
  · rw [Memory.unlisted_of_le (by omega)]
    simp [h]

end Sys2Proof.Machine
end

