-- ==== Sys2Proof/Laws/State.lean ====
section
/-! SUPPORT. One lemma per field per update of the state, so that no later proof unfolds a record update. -/

namespace Sys2Proof.Machine

@[simp] theorem State.setReg_v (s : State) (x : RegIdx) (b : Byte) : (s.setReg x b).v = s.v.set x b := rfl
@[simp] theorem State.setReg_i (s : State) (x : RegIdx) (b : Byte) : (s.setReg x b).i = s.i := rfl
@[simp] theorem State.setReg_pc (s : State) (x : RegIdx) (b : Byte) : (s.setReg x b).pc = s.pc := rfl
@[simp] theorem State.setReg_stack (s : State) (x : RegIdx) (b : Byte) : (s.setReg x b).stack = s.stack := rfl
@[simp] theorem State.setReg_dt (s : State) (x : RegIdx) (b : Byte) : (s.setReg x b).dt = s.dt := rfl
@[simp] theorem State.setReg_st (s : State) (x : RegIdx) (b : Byte) : (s.setReg x b).st = s.st := rfl
@[simp] theorem State.setReg_mem (s : State) (x : RegIdx) (b : Byte) : (s.setReg x b).mem = s.mem := rfl
@[simp] theorem State.setReg_fb (s : State) (x : RegIdx) (b : Byte) : (s.setReg x b).fb = s.fb := rfl
@[simp] theorem State.setReg_kwActive (s : State) (x : RegIdx) (b : Byte) : (s.setReg x b).kwActive = s.kwActive := rfl
@[simp] theorem State.setReg_kwPrev (s : State) (x : RegIdx) (b : Byte) : (s.setReg x b).kwPrev = s.kwPrev := rfl
@[simp] theorem State.setReg_halted (s : State) (x : RegIdx) (b : Byte) : (s.setReg x b).halted = s.halted := rfl
@[simp] theorem State.setReg_fault (s : State) (x : RegIdx) (b : Byte) : (s.setReg x b).fault = s.fault := rfl
@[simp] theorem State.setReg_cfg (s : State) (x : RegIdx) (b : Byte) : (s.setReg x b).cfg = s.cfg := rfl
@[simp] theorem State.setReg_env (s : State) (x : RegIdx) (b : Byte) : (s.setReg x b).env = s.env := rfl

@[simp] theorem State.setResultFlag_v (s : State) (x : RegIdx) (b f : Byte) : (s.setResultFlag x b f).v = (s.v.set x b).set vf f := rfl
@[simp] theorem State.setResultFlag_i (s : State) (x : RegIdx) (b f : Byte) : (s.setResultFlag x b f).i = s.i := rfl
@[simp] theorem State.setResultFlag_pc (s : State) (x : RegIdx) (b f : Byte) : (s.setResultFlag x b f).pc = s.pc := rfl
@[simp] theorem State.setResultFlag_stack (s : State) (x : RegIdx) (b f : Byte) : (s.setResultFlag x b f).stack = s.stack := rfl
@[simp] theorem State.setResultFlag_dt (s : State) (x : RegIdx) (b f : Byte) : (s.setResultFlag x b f).dt = s.dt := rfl
@[simp] theorem State.setResultFlag_st (s : State) (x : RegIdx) (b f : Byte) : (s.setResultFlag x b f).st = s.st := rfl
@[simp] theorem State.setResultFlag_mem (s : State) (x : RegIdx) (b f : Byte) : (s.setResultFlag x b f).mem = s.mem := rfl
@[simp] theorem State.setResultFlag_fb (s : State) (x : RegIdx) (b f : Byte) : (s.setResultFlag x b f).fb = s.fb := rfl
@[simp] theorem State.setResultFlag_kwActive (s : State) (x : RegIdx) (b f : Byte) : (s.setResultFlag x b f).kwActive = s.kwActive := rfl
@[simp] theorem State.setResultFlag_kwPrev (s : State) (x : RegIdx) (b f : Byte) : (s.setResultFlag x b f).kwPrev = s.kwPrev := rfl
@[simp] theorem State.setResultFlag_halted (s : State) (x : RegIdx) (b f : Byte) : (s.setResultFlag x b f).halted = s.halted := rfl
@[simp] theorem State.setResultFlag_fault (s : State) (x : RegIdx) (b f : Byte) : (s.setResultFlag x b f).fault = s.fault := rfl
@[simp] theorem State.setResultFlag_cfg (s : State) (x : RegIdx) (b f : Byte) : (s.setResultFlag x b f).cfg = s.cfg := rfl
@[simp] theorem State.setResultFlag_env (s : State) (x : RegIdx) (b f : Byte) : (s.setResultFlag x b f).env = s.env := rfl

@[simp] theorem State.preAdvance_v (s : State) : s.preAdvance.v = s.v := rfl
@[simp] theorem State.preAdvance_i (s : State) : s.preAdvance.i = s.i := rfl
@[simp] theorem State.preAdvance_pc (s : State) : s.preAdvance.pc = s.pc + 2 := rfl
@[simp] theorem State.preAdvance_stack (s : State) : s.preAdvance.stack = s.stack := rfl
@[simp] theorem State.preAdvance_dt (s : State) : s.preAdvance.dt = s.dt := rfl
@[simp] theorem State.preAdvance_st (s : State) : s.preAdvance.st = s.st := rfl
@[simp] theorem State.preAdvance_mem (s : State) : s.preAdvance.mem = s.mem := rfl
@[simp] theorem State.preAdvance_fb (s : State) : s.preAdvance.fb = s.fb := rfl
@[simp] theorem State.preAdvance_kwActive (s : State) : s.preAdvance.kwActive = s.kwActive := rfl
@[simp] theorem State.preAdvance_kwPrev (s : State) : s.preAdvance.kwPrev = s.kwPrev := rfl
@[simp] theorem State.preAdvance_halted (s : State) : s.preAdvance.halted = s.halted := rfl
@[simp] theorem State.preAdvance_fault (s : State) : s.preAdvance.fault = s.fault := rfl
@[simp] theorem State.preAdvance_cfg (s : State) : s.preAdvance.cfg = s.cfg := rfl
@[simp] theorem State.preAdvance_env (s : State) : s.preAdvance.env = s.env := rfl

@[simp] theorem State.setPc_v (s : State) (p : Word) : (s.setPc p).v = s.v := rfl
@[simp] theorem State.setPc_i (s : State) (p : Word) : (s.setPc p).i = s.i := rfl
@[simp] theorem State.setPc_pc (s : State) (p : Word) : (s.setPc p).pc = p := rfl
@[simp] theorem State.setPc_stack (s : State) (p : Word) : (s.setPc p).stack = s.stack := rfl
@[simp] theorem State.setPc_dt (s : State) (p : Word) : (s.setPc p).dt = s.dt := rfl
@[simp] theorem State.setPc_st (s : State) (p : Word) : (s.setPc p).st = s.st := rfl
@[simp] theorem State.setPc_mem (s : State) (p : Word) : (s.setPc p).mem = s.mem := rfl
@[simp] theorem State.setPc_fb (s : State) (p : Word) : (s.setPc p).fb = s.fb := rfl
@[simp] theorem State.setPc_kwActive (s : State) (p : Word) : (s.setPc p).kwActive = s.kwActive := rfl
@[simp] theorem State.setPc_kwPrev (s : State) (p : Word) : (s.setPc p).kwPrev = s.kwPrev := rfl
@[simp] theorem State.setPc_halted (s : State) (p : Word) : (s.setPc p).halted = s.halted := rfl
@[simp] theorem State.setPc_fault (s : State) (p : Word) : (s.setPc p).fault = s.fault := rfl
@[simp] theorem State.setPc_cfg (s : State) (p : Word) : (s.setPc p).cfg = s.cfg := rfl
@[simp] theorem State.setPc_env (s : State) (p : Word) : (s.setPc p).env = s.env := rfl

@[simp] theorem State.skip_v (s : State) : s.skip.v = s.v := rfl
@[simp] theorem State.skip_i (s : State) : s.skip.i = s.i := rfl
@[simp] theorem State.skip_pc (s : State) : s.skip.pc = s.pc + 2 := rfl
@[simp] theorem State.skip_stack (s : State) : s.skip.stack = s.stack := rfl
@[simp] theorem State.skip_dt (s : State) : s.skip.dt = s.dt := rfl
@[simp] theorem State.skip_st (s : State) : s.skip.st = s.st := rfl
@[simp] theorem State.skip_mem (s : State) : s.skip.mem = s.mem := rfl
@[simp] theorem State.skip_fb (s : State) : s.skip.fb = s.fb := rfl
@[simp] theorem State.skip_kwActive (s : State) : s.skip.kwActive = s.kwActive := rfl
@[simp] theorem State.skip_kwPrev (s : State) : s.skip.kwPrev = s.kwPrev := rfl
@[simp] theorem State.skip_halted (s : State) : s.skip.halted = s.halted := rfl
@[simp] theorem State.skip_fault (s : State) : s.skip.fault = s.fault := rfl
@[simp] theorem State.skip_cfg (s : State) : s.skip.cfg = s.cfg := rfl
@[simp] theorem State.skip_env (s : State) : s.skip.env = s.env := rfl

@[simp] theorem State.skipIf_v (s : State) (c : Bool) : (s.skipIf c).v = s.v := by cases c <;> rfl
@[simp] theorem State.skipIf_i (s : State) (c : Bool) : (s.skipIf c).i = s.i := by cases c <;> rfl
@[simp] theorem State.skipIf_pc (s : State) (c : Bool) : (s.skipIf c).pc = if c then s.pc + 2 else s.pc := by cases c <;> rfl
@[simp] theorem State.skipIf_stack (s : State) (c : Bool) : (s.skipIf c).stack = s.stack := by cases c <;> rfl
@[simp] theorem State.skipIf_dt (s : State) (c : Bool) : (s.skipIf c).dt = s.dt := by cases c <;> rfl
@[simp] theorem State.skipIf_st (s : State) (c : Bool) : (s.skipIf c).st = s.st := by cases c <;> rfl
@[simp] theorem State.skipIf_mem (s : State) (c : Bool) : (s.skipIf c).mem = s.mem := by cases c <;> rfl
@[simp] theorem State.skipIf_fb (s : State) (c : Bool) : (s.skipIf c).fb = s.fb := by cases c <;> rfl
@[simp] theorem State.skipIf_kwActive (s : State) (c : Bool) : (s.skipIf c).kwActive = s.kwActive := by cases c <;> rfl
@[simp] theorem State.skipIf_kwPrev (s : State) (c : Bool) : (s.skipIf c).kwPrev = s.kwPrev := by cases c <;> rfl
@[simp] theorem State.skipIf_halted (s : State) (c : Bool) : (s.skipIf c).halted = s.halted := by cases c <;> rfl
@[simp] theorem State.skipIf_fault (s : State) (c : Bool) : (s.skipIf c).fault = s.fault := by cases c <;> rfl
@[simp] theorem State.skipIf_cfg (s : State) (c : Bool) : (s.skipIf c).cfg = s.cfg := by cases c <;> rfl
@[simp] theorem State.skipIf_env (s : State) (c : Bool) : (s.skipIf c).env = s.env := by cases c <;> rfl

@[simp] theorem State.stall_v (s : State) : s.stall.v = s.v := rfl
@[simp] theorem State.stall_i (s : State) : s.stall.i = s.i := rfl
@[simp] theorem State.stall_pc (s : State) : s.stall.pc = s.pc - 2 := rfl
@[simp] theorem State.stall_stack (s : State) : s.stall.stack = s.stack := rfl
@[simp] theorem State.stall_dt (s : State) : s.stall.dt = s.dt := rfl
@[simp] theorem State.stall_st (s : State) : s.stall.st = s.st := rfl
@[simp] theorem State.stall_mem (s : State) : s.stall.mem = s.mem := rfl
@[simp] theorem State.stall_fb (s : State) : s.stall.fb = s.fb := rfl
@[simp] theorem State.stall_kwActive (s : State) : s.stall.kwActive = s.kwActive := rfl
@[simp] theorem State.stall_kwPrev (s : State) : s.stall.kwPrev = s.kwPrev := rfl
@[simp] theorem State.stall_halted (s : State) : s.stall.halted = s.halted := rfl
@[simp] theorem State.stall_fault (s : State) : s.stall.fault = s.fault := rfl
@[simp] theorem State.stall_cfg (s : State) : s.stall.cfg = s.cfg := rfl
@[simp] theorem State.stall_env (s : State) : s.stall.env = s.env := rfl

@[simp] theorem State.setI_v (s : State) (p : Word) : (s.setI p).v = s.v := rfl
@[simp] theorem State.setI_i (s : State) (p : Word) : (s.setI p).i = p := rfl
@[simp] theorem State.setI_pc (s : State) (p : Word) : (s.setI p).pc = s.pc := rfl
@[simp] theorem State.setI_stack (s : State) (p : Word) : (s.setI p).stack = s.stack := rfl
@[simp] theorem State.setI_dt (s : State) (p : Word) : (s.setI p).dt = s.dt := rfl
@[simp] theorem State.setI_st (s : State) (p : Word) : (s.setI p).st = s.st := rfl
@[simp] theorem State.setI_mem (s : State) (p : Word) : (s.setI p).mem = s.mem := rfl
@[simp] theorem State.setI_fb (s : State) (p : Word) : (s.setI p).fb = s.fb := rfl
@[simp] theorem State.setI_kwActive (s : State) (p : Word) : (s.setI p).kwActive = s.kwActive := rfl
@[simp] theorem State.setI_kwPrev (s : State) (p : Word) : (s.setI p).kwPrev = s.kwPrev := rfl
@[simp] theorem State.setI_halted (s : State) (p : Word) : (s.setI p).halted = s.halted := rfl
@[simp] theorem State.setI_fault (s : State) (p : Word) : (s.setI p).fault = s.fault := rfl
@[simp] theorem State.setI_cfg (s : State) (p : Word) : (s.setI p).cfg = s.cfg := rfl
@[simp] theorem State.setI_env (s : State) (p : Word) : (s.setI p).env = s.env := rfl

@[simp] theorem State.raise_v (s : State) (c : FaultCause) (o a : Option Word) : (s.raise c o a).v = s.v := rfl
@[simp] theorem State.raise_i (s : State) (c : FaultCause) (o a : Option Word) : (s.raise c o a).i = s.i := rfl
@[simp] theorem State.raise_pc (s : State) (c : FaultCause) (o a : Option Word) : (s.raise c o a).pc = s.pc := rfl
@[simp] theorem State.raise_stack (s : State) (c : FaultCause) (o a : Option Word) : (s.raise c o a).stack = s.stack := rfl
@[simp] theorem State.raise_dt (s : State) (c : FaultCause) (o a : Option Word) : (s.raise c o a).dt = s.dt := rfl
@[simp] theorem State.raise_st (s : State) (c : FaultCause) (o a : Option Word) : (s.raise c o a).st = s.st := rfl
@[simp] theorem State.raise_mem (s : State) (c : FaultCause) (o a : Option Word) : (s.raise c o a).mem = s.mem := rfl
@[simp] theorem State.raise_fb (s : State) (c : FaultCause) (o a : Option Word) : (s.raise c o a).fb = s.fb := rfl
@[simp] theorem State.raise_kwActive (s : State) (c : FaultCause) (o a : Option Word) : (s.raise c o a).kwActive = s.kwActive := rfl
@[simp] theorem State.raise_kwPrev (s : State) (c : FaultCause) (o a : Option Word) : (s.raise c o a).kwPrev = s.kwPrev := rfl
@[simp] theorem State.raise_halted (s : State) (c : FaultCause) (o a : Option Word) : (s.raise c o a).halted = true := rfl
@[simp] theorem State.raise_fault (s : State) (c : FaultCause) (o a : Option Word) : (s.raise c o a).fault = some ⟨c, s.pc, o, a⟩ := rfl
@[simp] theorem State.raise_cfg (s : State) (c : FaultCause) (o a : Option Word) : (s.raise c o a).cfg = s.cfg := rfl
@[simp] theorem State.raise_env (s : State) (c : FaultCause) (o a : Option Word) : (s.raise c o a).env = s.env := rfl

@[simp] theorem State.keepWaiting_v (s : State) : s.keepWaiting.v = s.v := rfl
@[simp] theorem State.keepWaiting_i (s : State) : s.keepWaiting.i = s.i := rfl
@[simp] theorem State.keepWaiting_pc (s : State) : s.keepWaiting.pc = s.pc + 2 - 2 := rfl
@[simp] theorem State.keepWaiting_stack (s : State) : s.keepWaiting.stack = s.stack := rfl
@[simp] theorem State.keepWaiting_dt (s : State) : s.keepWaiting.dt = s.dt := rfl
@[simp] theorem State.keepWaiting_st (s : State) : s.keepWaiting.st = s.st := rfl
@[simp] theorem State.keepWaiting_mem (s : State) : s.keepWaiting.mem = s.mem := rfl
@[simp] theorem State.keepWaiting_fb (s : State) : s.keepWaiting.fb = s.fb := rfl
@[simp] theorem State.keepWaiting_kwActive (s : State) : s.keepWaiting.kwActive = true := rfl
@[simp] theorem State.keepWaiting_kwPrev (s : State) : s.keepWaiting.kwPrev = s.env.keys := rfl
@[simp] theorem State.keepWaiting_halted (s : State) : s.keepWaiting.halted = s.halted := rfl
@[simp] theorem State.keepWaiting_fault (s : State) : s.keepWaiting.fault = s.fault := rfl
@[simp] theorem State.keepWaiting_cfg (s : State) : s.keepWaiting.cfg = s.cfg := rfl
@[simp] theorem State.keepWaiting_env (s : State) : s.keepWaiting.env = s.env := rfl

@[simp] theorem State.tick_v (s : State) : s.tick.v = s.v := by unfold State.tick; split <;> rfl
@[simp] theorem State.tick_i (s : State) : s.tick.i = s.i := by unfold State.tick; split <;> rfl
@[simp] theorem State.tick_pc (s : State) : s.tick.pc = s.pc := by unfold State.tick; split <;> rfl
@[simp] theorem State.tick_stack (s : State) : s.tick.stack = s.stack := by unfold State.tick; split <;> rfl
@[simp] theorem State.tick_dt (s : State) : s.tick.dt = if s.halted then s.dt else countDown s.dt := by unfold State.tick; split <;> rfl
@[simp] theorem State.tick_st (s : State) : s.tick.st = if s.halted then s.st else countDown s.st := by unfold State.tick; split <;> rfl
@[simp] theorem State.tick_mem (s : State) : s.tick.mem = s.mem := by unfold State.tick; split <;> rfl
@[simp] theorem State.tick_fb (s : State) : s.tick.fb = s.fb := by unfold State.tick; split <;> rfl
@[simp] theorem State.tick_kwActive (s : State) : s.tick.kwActive = s.kwActive := by unfold State.tick; split <;> rfl
@[simp] theorem State.tick_kwPrev (s : State) : s.tick.kwPrev = s.kwPrev := by unfold State.tick; split <;> rfl
@[simp] theorem State.tick_halted (s : State) : s.tick.halted = s.halted := by unfold State.tick; split <;> rfl
@[simp] theorem State.tick_fault (s : State) : s.tick.fault = s.fault := by unfold State.tick; split <;> rfl
@[simp] theorem State.tick_cfg (s : State) : s.tick.cfg = s.cfg := by unfold State.tick; split <;> rfl
@[simp] theorem State.tick_env (s : State) : s.tick.env = s.env := by unfold State.tick; split <;> rfl

@[simp] theorem State.takeEvent_v (s : State) : s.takeEvent.v = s.v := rfl
@[simp] theorem State.takeEvent_i (s : State) : s.takeEvent.i = s.i := rfl
@[simp] theorem State.takeEvent_pc (s : State) : s.takeEvent.pc = s.pc := rfl
@[simp] theorem State.takeEvent_stack (s : State) : s.takeEvent.stack = s.stack := rfl
@[simp] theorem State.takeEvent_dt (s : State) : s.takeEvent.dt = s.dt := rfl
@[simp] theorem State.takeEvent_st (s : State) : s.takeEvent.st = s.st := rfl
@[simp] theorem State.takeEvent_mem (s : State) : s.takeEvent.mem = s.mem := rfl
@[simp] theorem State.takeEvent_fb (s : State) : s.takeEvent.fb = s.fb := rfl
@[simp] theorem State.takeEvent_kwActive (s : State) : s.takeEvent.kwActive = s.kwActive := rfl
@[simp] theorem State.takeEvent_kwPrev (s : State) : s.takeEvent.kwPrev = s.kwPrev := rfl
@[simp] theorem State.takeEvent_halted (s : State) : s.takeEvent.halted = s.halted := rfl
@[simp] theorem State.takeEvent_fault (s : State) : s.takeEvent.fault = s.fault := rfl
@[simp] theorem State.takeEvent_cfg (s : State) : s.takeEvent.cfg = s.cfg := rfl
@[simp] theorem State.takeEvent_env (s : State) : s.takeEvent.env = s.env.advance := rfl

@[simp] theorem State.sample_v (s : State) (k : Keys) (r : Byte) : (s.sample k r).v = s.v := rfl
@[simp] theorem State.sample_i (s : State) (k : Keys) (r : Byte) : (s.sample k r).i = s.i := rfl
@[simp] theorem State.sample_pc (s : State) (k : Keys) (r : Byte) : (s.sample k r).pc = s.pc := rfl
@[simp] theorem State.sample_stack (s : State) (k : Keys) (r : Byte) : (s.sample k r).stack = s.stack := rfl
@[simp] theorem State.sample_dt (s : State) (k : Keys) (r : Byte) : (s.sample k r).dt = s.dt := rfl
@[simp] theorem State.sample_st (s : State) (k : Keys) (r : Byte) : (s.sample k r).st = s.st := rfl
@[simp] theorem State.sample_mem (s : State) (k : Keys) (r : Byte) : (s.sample k r).mem = s.mem := rfl
@[simp] theorem State.sample_fb (s : State) (k : Keys) (r : Byte) : (s.sample k r).fb = s.fb := rfl
@[simp] theorem State.sample_kwActive (s : State) (k : Keys) (r : Byte) : (s.sample k r).kwActive = s.kwActive := rfl
@[simp] theorem State.sample_kwPrev (s : State) (k : Keys) (r : Byte) : (s.sample k r).kwPrev = s.kwPrev := rfl
@[simp] theorem State.sample_halted (s : State) (k : Keys) (r : Byte) : (s.sample k r).halted = s.halted := rfl
@[simp] theorem State.sample_fault (s : State) (k : Keys) (r : Byte) : (s.sample k r).fault = s.fault := rfl
@[simp] theorem State.sample_cfg (s : State) (k : Keys) (r : Byte) : (s.sample k r).cfg = s.cfg := rfl
@[simp] theorem State.sample_env (s : State) (k : Keys) (r : Byte) : (s.sample k r).env = { s.env with keys := k, random := r } := rfl

end Sys2Proof.Machine
end

