-- ==== Sys2Proof/Laws/Machine.lean ====
section
/-! SUPPORT. One lemma per shared operation, saying everything it can do: registers, range checks, the fetch, the stack,
faults, the key set operations, the events. -/

namespace Sys2Proof.Machine

/-! ### Registers -/

theorem State.reg_eq (s : State) (j : RegIdx) : s.reg j = s.v[j] := rfl

/-- A register write changes the register written and no other. -/
theorem State.reg_setReg (s : State) (x j : RegIdx) (b : Byte) :
    (s.setReg x b).reg j = if j = x then b else s.reg j := by
  simp only [State.reg, State.setReg, Fin.getElem_fin, Vector.getElem_set, Fin.ext_iff, eq_comm]

/-- Result then flag: `VF` holds the flag whatever the destination is (10_state.md R22). -/
theorem State.reg_setResultFlag (s : State) (x j : RegIdx) (r f : Byte) :
    (s.setResultFlag x r f).reg j = if j = vf then f else if j = x then r else s.reg j := by
  rw [State.setResultFlag, State.reg_setReg, State.reg_setReg]

@[simp] theorem State.reg_preAdvance (s : State) (j : RegIdx) : s.preAdvance.reg j = s.reg j := rfl
@[simp] theorem State.reg_setPc (s : State) (p : Word) (j : RegIdx) : (s.setPc p).reg j = s.reg j := rfl
@[simp] theorem State.reg_setI (s : State) (p : Word) (j : RegIdx) : (s.setI p).reg j = s.reg j := rfl
@[simp] theorem State.reg_skipIf (s : State) (c : Bool) (j : RegIdx) : (s.skipIf c).reg j = s.reg j := by
  cases c <;> rfl
@[simp] theorem State.reg_raise (s : State) (c : FaultCause) (o a : Option Word) (j : RegIdx) :
    (s.raise c o a).reg j = s.reg j := rfl
@[simp] theorem State.reg_keepWaiting (s : State) (j : RegIdx) : s.keepWaiting.reg j = s.reg j := rfl

/-- Loading a block writes `V[j], …` and no other register. -/
theorem getElem_loadRegs (v : Vector Byte 16) (j : Nat) (bs : List Byte) (k : RegIdx) :
    (loadRegs v j bs)[k] = if j ≤ k.val ∧ k.val < j + bs.length then bs.getD (k.val - j) 0 else v[k] := by
  induction bs generalizing v j with
  | nil => simp only [loadRegs, List.length_nil]; rw [if_neg (by omega)]
  | cons b bs ih =>
    rw [loadRegs, ih]
    simp only [Fin.getElem_fin, List.length_cons]
    by_cases h1 : j + 1 ≤ k.val ∧ k.val < j + 1 + bs.length
    · rw [if_pos h1, if_pos (by omega)]
      obtain ⟨q, hq⟩ : ∃ q, k.val = j + 1 + q := ⟨k.val - (j + 1), by omega⟩
      have e1 : k.val - (j + 1) = q := by omega
      have e2 : k.val - j = q + 1 := by omega
      rw [e1, e2]; simp
    · rw [if_neg h1, Vector.getElem_setIfInBounds]
      by_cases h2 : j = k.val
      · rw [if_pos h2, if_pos (by omega)]; simp [h2]
      · rw [if_neg h2, if_neg (by omega)]

@[simp] theorem State.length_regBlock (s : State) (x : RegIdx) : (s.regBlock x).length = x.val + 1 := by
  simp [State.regBlock]

/-- The `j`-th byte of the block `V[0..x]`. -/
theorem State.getD_regBlock (s : State) (x j : RegIdx) (h : j ≤ x) : (s.regBlock x).getD j.val 0 = s.reg j := by
  have hj : j.val < x.val + 1 := by have := Fin.le_def.mp h; omega
  have h16 : j.val < s.v.toList.length := by simp
  simp only [State.regBlock, State.reg, List.getD_eq_getElem?_getD, List.getElem?_take, if_pos hj]
  rw [List.getElem?_eq_getElem h16]
  simp

@[simp] theorem length_bcdDigits (x : Byte) : (bcdDigits x).length = 3 := rfl

/-! ### Range checks and the fetch -/

/-- `CheckRange` (20_memory.md R64): no violation exactly when the last address is in memory. -/
theorem checkRange_eq_none {base : Word} {count : Nat} :
    checkRange base count = none ↔ base.toNat + count - 1 ≤ 0xFFF := by
  unfold checkRange
  split <;> simp <;> omega

/-- The address a violation records: the lowest of the range above 0xFFF. -/
theorem checkRange_eq_some {base a : Word} {count : Nat} :
    checkRange base count = some a ↔
      0xFFF < base.toNat + count - 1 ∧ a = if 0xFFF < base.toNat then base else 0x1000 := by
  unfold checkRange
  split <;> simp [eq_comm] <;> omega

theorem fetch_eq_ok {s : State} {op : Word} :
    fetch s = .ok op ↔ s.pc.toNat < 0xFFF ∧ op = bigEndian (s.mem.read s.pc.toNat) (s.mem.read (s.pc.toNat + 1)) := by
  unfold fetch
  dsimp only
  split
  · simp; omega
  · simp only [Except.ok.injEq, eq_comm]; constructor
    · intro h; exact ⟨by omega, h⟩
    · exact fun h => h.2

theorem fetch_eq_error {s : State} {a : Word} :
    fetch s = .error a ↔ 0xFFF ≤ s.pc.toNat ∧ a = if 0xFFF < s.pc.toNat then s.pc else 0x1000 := by
  unfold fetch
  dsimp only
  split
  · simp only [Except.error.injEq, eq_comm]; constructor
    · intro h; exact ⟨by omega, h⟩
    · exact fun h => h.2
  · simp; omega

/-- The fetch depends on `PC` and memory alone. -/
theorem fetch_congr {s t : State} (hpc : t.pc = s.pc) (hmem : t.mem = s.mem) : fetch t = fetch s := by
  unfold fetch; rw [hpc, hmem]

/-! ### The call stack (10_state.md R31) -/

theorem State.push_eq_some {s t : State} {r : Word} :
    s.push r = some t ↔ s.stack.length ≠ s.cfg.stackDepth ∧ t = { s with stack := s.stack ++ [r] } := by
  unfold State.push
  split <;> simp_all [eq_comm]

theorem State.push_eq_none {s : State} {r : Word} : s.push r = none ↔ s.stack.length = s.cfg.stackDepth := by
  unfold State.push
  split <;> simp_all

theorem State.pop_eq_none {s : State} : s.pop = none ↔ s.stack = [] := by
  unfold State.pop
  split
  · simp_all
  · rename_i r hr
    have : s.stack ≠ [] := by rintro h; simp [h] at hr
    simp [this]

theorem State.pop_eq_some {s t : State} {r : Word} :
    s.pop = some (r, t) ↔ s.stack = t.stack ++ [r] ∧ t = { s with stack := t.stack } := by
  unfold State.pop
  constructor
  · intro h
    split at h
    · cases h
    · rename_i q hq
      simp only [Option.some.injEq, Prod.mk.injEq] at h
      obtain ⟨rfl, rfl⟩ := h
      exact ⟨(List.dropLast_append_getLast? _ hq).symm, rfl⟩
  · rintro ⟨h1, h2⟩
    rw [h1]
    simp only [List.getLast?_append, List.getLast?_singleton, Option.some_or, List.dropLast_concat]
    rw [← h2]

/-! ### Keys (42_skips.md R166, 45_timers_and_keywait.md R234, R235) -/

theorem pressed_eq_true {k : Keys} {x : Byte} : pressed k x = true ↔ x.toNat ≤ 15 ∧ k.getLsbD x.toNat = true := by
  simp [pressed]

theorem getLsbD_edges (e : KeyEdge) (p n : Keys) (k : Nat) (h : k < 16) :
    (edges e p n).getLsbD k = match e with
      | .release => p.getLsbD k && !n.getLsbD k
      | .press => n.getLsbD k && !p.getLsbD k := by
  cases e <;> simp [edges, h]

theorem lowestKey_eq_some {e : Keys} {k : Nat} :
    lowestKey e = some k ↔ k < 16 ∧ e.getLsbD k = true ∧ ∀ j < k, e.getLsbD j = false := by
  rw [lowestKey, List.find?_range_eq_some]
  simp only [List.mem_range, Bool.not_eq_eq_eq_not, Bool.not_true]
  tauto

theorem lowestKey_eq_none {e : Keys} : lowestKey e = none ↔ e = 0 := by
  rw [lowestKey, List.find?_eq_none]
  constructor
  · intro h
    apply BitVec.eq_of_getLsbD_eq
    intro j hj
    simpa using h j (by simpa using hj)
  · rintro rfl j -
    simp

/-! ### Events (60_exceptions.md R283) -/

theorem step_of_step {s : State} {k : Keys} {r : Byte} (h : s.nextEvent = .step k r) :
    step s = s.takeEvent.stepEvent k r := by
  rw [step, h]

theorem step_of_tick {s : State} (h : s.nextEvent = .tick) : step s = .next s.takeEvent.tick := by
  rw [step, h]

theorem step_of_reset {s : State} {p : Config} (h : s.nextEvent = .reset p) :
    step s = construct p s.takeEvent.env := by
  rw [step, h]

theorem nextEvent_cons {s : State} {e : Event} {es : List Event} (h : s.env.events = e :: es) : s.nextEvent = e := by
  rw [State.nextEvent, h]

/-- What the fetch of a step sees: taking the event and sampling change neither `PC` nor memory. -/
@[simp] theorem fetch_takeEvent_sample (s : State) (k : Keys) (r : Byte) :
    fetch (s.takeEvent.sample k r) = fetch s := rfl

/-- A running core on a decodable opcode. -/
theorem stepEvent_of_ok {s : State} {op : Word} {i : Instr} (k : Keys) (r : Byte) (hh : s.halted = false)
    (hf : fetch s = .ok op) (hd : decode op = .ok i) : s.stepEvent k r = exec i (s.sample k r) := by
  have hf' : fetch (s.sample k r) = .ok op := hf
  simp [State.stepEvent, hh, State.fetchExecute, hf', State.dispatch, hd]

/-- A running core on an illegal opcode. -/
theorem stepEvent_of_unsupported {s : State} {op : Word} {e : DecodeReject} (k : Keys) (r : Byte)
    (hh : s.halted = false) (hf : fetch s = .ok op) (hd : decode op = .error e) :
    s.stepEvent k r = .next ((s.sample k r).raise .unsupportedOpcode (some op) none) := by
  have hf' : fetch (s.sample k r) = .ok op := hf
  simp [State.stepEvent, hh, State.fetchExecute, hf', State.dispatch, hd]

/-- A running core whose fetch leaves memory. -/
theorem stepEvent_of_error {s : State} {a : Word} (k : Keys) (r : Byte) (hh : s.halted = false)
    (hf : fetch s = .error a) :
    s.stepEvent k r = .next ((s.sample k r).raise .outOfBoundsAccess none (some a)) := by
  have hf' : fetch (s.sample k r) = .error a := hf
  simp [State.stepEvent, hh, State.fetchExecute, hf']

/-- A halted core. -/
theorem stepEvent_of_halted {s : State} (k : Keys) (r : Byte) (hh : s.halted = true) :
    s.stepEvent k r = .next s := by
  simp [State.stepEvent, hh]

/-- Everything a Step event can do. -/
theorem stepEvent_cases (s : State) (k : Keys) (r : Byte) :
    (s.halted = true ∧ s.stepEvent k r = .next s) ∨
    (s.halted = false ∧ ∃ a, fetch s = .error a ∧
      s.stepEvent k r = .next ((s.sample k r).raise .outOfBoundsAccess none (some a))) ∨
    (s.halted = false ∧ ∃ op e, fetch s = .ok op ∧ decode op = .error e ∧
      s.stepEvent k r = .next ((s.sample k r).raise .unsupportedOpcode (some op) none)) ∨
    (s.halted = false ∧ ∃ op i, fetch s = .ok op ∧ decode op = .ok i ∧
      s.stepEvent k r = exec i (s.sample k r)) := by
  cases hh : s.halted with
  | true => exact .inl ⟨rfl, stepEvent_of_halted k r hh⟩
  | false =>
    cases h1 : fetch s with
    | error a => exact .inr (.inl ⟨rfl, a, rfl, stepEvent_of_error k r hh h1⟩)
    | ok op =>
      cases h2 : decode op with
      | error e => exact .inr (.inr (.inl ⟨rfl, op, e, rfl, h2, stepEvent_of_unsupported k r hh h1 h2⟩))
      | ok i => exact .inr (.inr (.inr ⟨rfl, op, i, rfl, h2, stepEvent_of_ok k r hh h1 h2⟩))

/-- A tick of a running core. -/
theorem tick_of_running {s : State} (hh : s.halted = false) :
    s.tick = { s with dt := countDown s.dt, st := countDown s.st } := by
  simp [State.tick, hh]

/-- A tick of a halted core. -/
theorem tick_of_halted {s : State} (hh : s.halted = true) : s.tick = s := by
  simp [State.tick, hh]

/-- A counter goes down by one and stops at 0 (60_exceptions.md R276). -/
theorem toNat_countDown (n : Byte) : (countDown n).toNat = n.toNat - 1 := by
  unfold countDown
  split
  · simp_all
  · rename_i h
    have : n.toNat ≠ 0 := fun e => h (BitVec.eq_of_toNat_eq (by simpa using e))
    rw [BitVec.toNat_sub_of_le] <;> simp [BitVec.le_def]
    omega

/-- A flag as a number. -/
theorem toNat_flagByte (b : Bool) : (flagByte b).toNat = if b then 1 else 0 := by cases b <;> rfl

end Sys2Proof.Machine
end

