-- ==== Sys2Proof/Laws/Display.lean ====
section
/-! SUPPORT. What drawing does to every pixel and to the collision flag (46_display.md R251, R252): the sprite is the
list of its set pixels, no two of them in the same cell, and each is flipped once. -/

namespace Sys2Proof.Machine

/-- Two coordinate pairs name the same cell of the screen, after wraparound (R252). -/
abbrev SameCell (p q : Nat × Nat) : Prop := p.1 % 64 = q.1 % 64 ∧ p.2 % 32 = q.2 % 32

theorem getLsbD_one_shiftLeft (k j : Nat) (hj : j < 64) : (1#64 <<< k).getLsbD j = decide (j = k) := by
  rw [BitVec.getLsbD_shiftLeft]
  simp only [hj, decide_true, Bool.true_and, BitVec.getLsbD_one]
  by_cases h : j < k
  · simp [h]; omega
  · by_cases h2 : j = k
    · simp [h2]
    · have : j - k ≠ 0 := by omega
      simp [h, h2, this]

/-- A flip changes its own pixel and no other. -/
theorem pixelAt_flipPixel (fb : FrameBuffer) (x y x' y' : Nat) :
    pixelAt (flipPixel fb x y) x' y' = (pixelAt fb x' y' ^^ decide (SameCell (x, y) (x', y'))) := by
  unfold pixelAt flipPixel
  rw [Vector.getElem_set]
  by_cases hy : y % 32 = y' % 32
  · rw [if_pos hy, BitVec.getLsbD_xor, getLsbD_one_shiftLeft _ _ (Nat.mod_lt x' (by decide : 64 > 0))]
    simp only [hy, SameCell, and_true, eq_comm]
  · rw [if_neg hy]
    simp [SameCell, hy]

theorem pixelAt_congr (fb : FrameBuffer) {p q : Nat × Nat} (h : SameCell p q) :
    pixelAt fb p.1 p.2 = pixelAt fb q.1 q.2 := by
  unfold pixelAt
  simp only [h.1, h.2]

/-- Toggling answers the opposite of the old pixel. -/
theorem toggle_snd (fb : FrameBuffer) (x y : Nat) : (toggle fb x y).2 = !pixelAt fb x y := by
  simp [toggle, pixelAt_flipPixel, SameCell]

/-- One set sprite bit. -/
def togglePoint (acc : FrameBuffer × Bool) (p : Nat × Nat) : FrameBuffer × Bool :=
  (flipPixel acc.1 p.1 p.2, acc.2 || pixelAt acc.1 p.1 p.2)

/-- The set pixels of one sprite row. -/
def rowPoints (x0 y : Nat) (b : Byte) : List (Nat × Nat) :=
  ([0, 1, 2, 3, 4, 5, 6, 7].filter fun c => b.getLsbD (7 - c)).map fun c => (x0 + c, y)

/-- The set pixels of a sprite. -/
def spritePoints (x0 y : Nat) : List Byte → List (Nat × Nat)
  | [] => []
  | b :: bs => rowPoints x0 y b ++ spritePoints x0 (y + 1) bs

theorem drawRow_eq_foldl (x0 y : Nat) (b : Byte) (acc : FrameBuffer × Bool) :
    drawRow x0 y b acc = (rowPoints x0 y b).foldl togglePoint acc := by
  rw [rowPoints, List.foldl_map, List.foldl_filter, drawRow]
  congr 1
  funext acc c
  unfold drawColumn togglePoint
  split
  · rw [toggle_snd, Bool.not_not, toggle]
  · rfl

theorem drawRows_eq_foldl (x0 y : Nat) (bs : List Byte) (acc : FrameBuffer × Bool) :
    drawRows x0 y bs acc = (spritePoints x0 y bs).foldl togglePoint acc := by
  induction bs generalizing y acc with
  | nil => rfl
  | cons b bs ih => rw [drawRows, ih, spritePoints, List.foldl_append, drawRow_eq_foldl]

theorem mem_rowPoints {x0 y : Nat} {b : Byte} {p : Nat × Nat} :
    p ∈ rowPoints x0 y b ↔ ∃ c < 8, b.getLsbD (7 - c) = true ∧ p = (x0 + c, y) := by
  simp only [rowPoints, List.mem_map, List.mem_filter]
  constructor
  · rintro ⟨c, ⟨hc, hb⟩, rfl⟩
    refine ⟨c, ?_, hb, rfl⟩
    simp only [List.mem_cons, List.not_mem_nil, or_false] at hc
    omega
  · rintro ⟨c, hc, hb, rfl⟩
    refine ⟨c, ⟨?_, hb⟩, rfl⟩
    simp only [List.mem_cons, List.not_mem_nil, or_false]
    omega

theorem mem_spritePoints {x0 y : Nat} {bs : List Byte} {p : Nat × Nat} :
    p ∈ spritePoints x0 y bs ↔
      ∃ r < bs.length, ∃ c < 8, (bs.getD r 0).getLsbD (7 - c) = true ∧ p = (x0 + c, y + r) := by
  induction bs generalizing y with
  | nil => simp [spritePoints]
  | cons b bs ih =>
    rw [spritePoints, List.mem_append, mem_rowPoints, ih]
    constructor
    · rintro (⟨c, hc, hb, rfl⟩ | ⟨r, hr, c, hc, hb, rfl⟩)
      · exact ⟨0, by simp, c, hc, by simpa using hb, rfl⟩
      · exact ⟨r + 1, by simpa using hr, c, hc, by simpa using hb, by rw [Nat.add_assoc, Nat.add_comm 1 r]⟩
    · rintro ⟨r, hr, c, hc, hb, rfl⟩
      cases r with
      | zero => exact .inl ⟨c, hc, by simpa using hb, rfl⟩
      | succ r =>
        exact .inr ⟨r, by simpa using hr, c, hc, by simpa using hb, by rw [Nat.add_assoc, Nat.add_comm 1 r]⟩

/-- No two bits of one sprite are in the same cell (R251, corner cases). -/
theorem pairwise_spritePoints (x0 y : Nat) (bs : List Byte) (h : bs.length ≤ 32) :
    (spritePoints x0 y bs).Pairwise fun p q => ¬ SameCell p q := by
  induction bs generalizing y with
  | nil => exact .nil
  | cons b bs ih =>
    simp only [List.length_cons] at h
    rw [spritePoints, List.pairwise_append]
    refine ⟨?_, ih (y + 1) (by omega), ?_⟩
    · rw [rowPoints, List.pairwise_map]
      apply List.Pairwise.filter
      have : ([0, 1, 2, 3, 4, 5, 6, 7] : List Nat).Pairwise fun c d => c < d ∧ d < 8 := by decide
      refine this.imp fun {c d} hcd hs => ?_
      have := hs.1
      dsimp only at this
      omega
    · intro p hp q hq hs
      obtain ⟨c, hc, -, rfl⟩ := mem_rowPoints.mp hp
      obtain ⟨r, hr, d, hd, -, rfl⟩ := mem_spritePoints.mp hq
      have := hs.2
      dsimp only at this
      omega

/-- Flipping distinct cells: each pixel is flipped if it is one of them, and a collision is seen if one of them was
lit before. -/
theorem foldl_togglePoint (ps : List (Nat × Nat)) (hp : ps.Pairwise fun p q => ¬ SameCell p q)
    (acc : FrameBuffer × Bool) :
    (∀ x y, pixelAt (ps.foldl togglePoint acc).1 x y =
      (pixelAt acc.1 x y ^^ decide (∃ p ∈ ps, SameCell p (x, y)))) ∧
    ((ps.foldl togglePoint acc).2 = true ↔ acc.2 = true ∨ ∃ p ∈ ps, pixelAt acc.1 p.1 p.2 = true) := by
  induction ps generalizing acc with
  | nil => simp
  | cons p ps ih =>
    obtain ⟨hhead, htail⟩ := List.pairwise_cons.mp hp
    obtain ⟨ih1, ih2⟩ := ih htail (togglePoint acc p)
    refine ⟨fun x y => ?_, ?_⟩
    · rw [List.foldl_cons, ih1]
      simp only [togglePoint, pixelAt_flipPixel, List.mem_cons, exists_eq_or_imp]
      by_cases h1 : SameCell p (x, y)
      · have h2 : ¬ ∃ q ∈ ps, SameCell q (x, y) := by
          rintro ⟨q, hq, hs⟩
          exact hhead q hq ⟨h1.1.trans hs.1.symm, h1.2.trans hs.2.symm⟩
        rw [decide_eq_false h2, decide_eq_true h1, decide_eq_true (Or.inl h1), Bool.xor_false]
      · rw [decide_eq_false h1, Bool.xor_false]
        congr 1
        rw [decide_eq_decide]
        exact (or_iff_right h1).symm
    · rw [List.foldl_cons, ih2]
      have h3 : ∀ q ∈ ps, pixelAt (flipPixel acc.1 p.1 p.2) q.1 q.2 = pixelAt acc.1 q.1 q.2 := by
        intro q hq
        rw [pixelAt_flipPixel]
        simp [show ¬ SameCell (p.1, p.2) (q.1, q.2) from hhead q hq]
      simp only [togglePoint, Bool.or_eq_true, List.mem_cons, exists_eq_or_imp]
      constructor
      · rintro ((h | h) | ⟨q, hq, h⟩)
        · exact .inl h
        · exact .inr (.inl h)
        · exact .inr (.inr ⟨q, hq, by rwa [h3 q hq] at h⟩)
      · rintro (h | h | ⟨q, hq, h⟩)
        · exact .inl (.inl h)
        · exact .inl (.inr h)
        · exact .inr ⟨q, hq, by rwa [h3 q hq]⟩

/-- Everything a sprite of at most 32 rows does (R251): it flips the cells of its set bits, and collides exactly if one
of those cells was lit. -/
theorem drawRows_spec (x0 y0 : Nat) (bs : List Byte) (h : bs.length ≤ 32) (fb : FrameBuffer) :
    (∀ x y, pixelAt (drawRows x0 y0 bs (fb, false)).1 x y =
      (pixelAt fb x y ^^ decide (∃ p ∈ spritePoints x0 y0 bs, SameCell p (x, y)))) ∧
    ((drawRows x0 y0 bs (fb, false)).2 = true ↔ ∃ p ∈ spritePoints x0 y0 bs, pixelAt fb p.1 p.2 = true) := by
  rw [drawRows_eq_foldl]
  have := foldl_togglePoint (spritePoints x0 y0 bs) (pairwise_spritePoints x0 y0 bs h) (fb, false)
  simpa using this

/-- The port's pixel is the framebuffer's. -/
theorem State.pixel_eq (s : State) (x : Fin 64) (y : Fin 32) : s.pixel x y = pixelAt s.fb x.val y.val := by
  unfold State.pixel pixelAt
  simp only [Fin.getElem_fin, Nat.mod_eq_of_lt x.isLt, Nat.mod_eq_of_lt y.isLt]

/-- Framebuffers with equal pixels are equal. -/
theorem fb_eq_of_pixelAt {f g : FrameBuffer} (h : ∀ x y, pixelAt f x y = pixelAt g x y) : f = g := by
  apply Vector.ext
  intro y hy
  apply BitVec.eq_of_getLsbD_eq
  intro x hx
  have := h x y
  unfold pixelAt at this
  simpa only [Nat.mod_eq_of_lt hx, Nat.mod_eq_of_lt hy] using this

end Sys2Proof.Machine
end

