-- ==== Sys2Proof/Laws/Frames.lean ====
section
/-! SUPPORT. The frames of the shared operations: what each shape of instruction leaves unchanged. -/

namespace Sys2Proof.Machine

/-- A step that writes one register. -/
theorem registersOnly_setReg (s : State) (x : RegIdx) (b : Byte) : RegistersOnly s (s.preAdvance.setReg x b) :=
  ⟨rfl, rfl, fun _ => rfl, fun _ _ => rfl, ⟨rfl, rfl⟩, ⟨rfl, rfl⟩, ⟨rfl, rfl, rfl, rfl⟩⟩

theorem sameRegsBut_setReg (s : State) (x : RegIdx) (b : Byte) : SameRegsBut (· = x) s (s.preAdvance.setReg x b) := by
  intro j hj
  rw [State.reg_setReg, if_neg hj]
  rfl

/-- A step that writes a result and then the flag. -/
theorem registersOnly_setResultFlag (s : State) (x : RegIdx) (r f : Byte) :
    RegistersOnly s (s.preAdvance.setResultFlag x r f) :=
  ⟨rfl, rfl, fun _ => rfl, fun _ _ => rfl, ⟨rfl, rfl⟩, ⟨rfl, rfl⟩, ⟨rfl, rfl, rfl, rfl⟩⟩

theorem sameRegsBut_setResultFlag (s : State) (x : RegIdx) (r f : Byte) :
    SameRegsBut (fun j => j = x ∨ j = vf) s (s.preAdvance.setResultFlag x r f) := by
  intro j hj
  rw [not_or] at hj
  rw [State.reg_setResultFlag, if_neg hj.2, if_neg hj.1]
  rfl

/-- A step that sets `PC` alone. -/
theorem registersOnly_setPc (s : State) (p : Word) : RegistersOnly s (s.preAdvance.setPc p) :=
  ⟨rfl, rfl, fun _ => rfl, fun _ _ => rfl, ⟨rfl, rfl⟩, ⟨rfl, rfl⟩, ⟨rfl, rfl, rfl, rfl⟩⟩

/-- A skip. -/
theorem registersOnly_skipIf (s : State) (c : Bool) : RegistersOnly s (s.preAdvance.skipIf c) := by
  cases c
  all_goals exact ⟨rfl, rfl, fun _ => rfl, fun _ _ => rfl, ⟨rfl, rfl⟩, ⟨rfl, rfl⟩, ⟨rfl, rfl, rfl, rfl⟩⟩

/-- A step that writes `I`. -/
theorem indexOnly_setI (s : State) (p : Word) : IndexAndRegistersOnly s (s.preAdvance.setI p) :=
  ⟨rfl, fun _ => rfl, fun _ _ => rfl, ⟨rfl, rfl⟩, ⟨rfl, rfl⟩, ⟨rfl, rfl, rfl, rfl⟩⟩

/-- A stall. -/
theorem keyWaitOnly_keepWaiting (s : State) : KeyWaitAndRegistersOnly s s.keepWaiting :=
  ⟨rfl, rfl, fun _ => rfl, fun _ _ => rfl, ⟨rfl, rfl⟩, ⟨rfl, rfl, rfl, rfl⟩⟩

/-- A stall leaves `PC` at the fetch address (45_timers_and_keywait.md R236). -/
@[simp] theorem pc_keepWaiting (s : State) : s.keepWaiting.pc = s.pc := by
  show s.pc + 2 - 2 = s.pc
  exact BitVec.add_sub_cancel _ _

/-- Everything a checked transfer does: the transfer if the range is in memory, else the fault. -/
theorem ifInRange_of_le {s t : State} {ins : Instr} {n : Nat} (h : s.i.toNat + n - 1 ≤ 0xFFF) :
    s.ifInRange ins n t = t := by
  rw [State.ifInRange, checkRange_eq_none.mpr h]

theorem ifInRange_of_gt {s t : State} {ins : Instr} {n : Nat} (h : 0xFFF < s.i.toNat + n - 1) :
    s.ifInRange ins n t =
      s.raise .outOfBoundsAccess (some (encode ins)) (some (if 0xFFF < s.i.toNat then s.i else 0x1000)) := by
  rw [State.ifInRange, checkRange_eq_some.mpr ⟨h, rfl⟩]

/-- Both outcomes of a checked transfer. -/
theorem ifInRange_cases (s : State) (ins : Instr) (n : Nat) (t : State) :
    (s.i.toNat + n - 1 ≤ 0xFFF ∧ s.ifInRange ins n t = t) ∨
    (0xFFF < s.i.toNat + n - 1 ∧ s.ifInRange ins n t =
      s.raise .outOfBoundsAccess (some (encode ins)) (some (if 0xFFF < s.i.toNat then s.i else 0x1000))) := by
  rcases Nat.lt_or_ge 0xFFF (s.i.toNat + n - 1) with h | h
  · exact .inr ⟨h, ifInRange_of_gt h⟩
  · exact .inl ⟨h, ifInRange_of_le h⟩

/-! ### Calls and returns -/

/-- A call with room on the stack. -/
theorem exec_call_of_room {s : State} (nnn : BitVec 12) (h : s.stack.length ≠ s.cfg.stackDepth) :
    exec (.call nnn) s = .next { s with stack := s.stack ++ [s.pc + 2], pc := addrOf nnn } := by
  have hp : s.preAdvance.push s.preAdvance.pc = some { s.preAdvance with stack := s.stack ++ [s.pc + 2] } :=
    State.push_eq_some.mpr ⟨h, rfl⟩
  simp only [exec, execCall, hp]
  rfl

/-- A call on a full stack. -/
theorem exec_call_of_full {s : State} (nnn : BitVec 12) (h : s.stack.length = s.cfg.stackDepth) :
    exec (.call nnn) s = .next (s.raise .stackOverflow (some (encode (.call nnn))) none) := by
  have hp : s.preAdvance.push s.preAdvance.pc = none := State.push_eq_none.mpr h
  simp only [exec, execCall, hp]

/-- A return to the last pushed address. -/
theorem exec_ret_of_append {s : State} {st : List Word} {r : Word} (h : s.stack = st ++ [r]) :
    exec .ret s = .next { s with stack := st, pc := r } := by
  have hp : s.preAdvance.pop = some (r, { s.preAdvance with stack := st }) := State.pop_eq_some.mpr ⟨h, rfl⟩
  simp only [exec, execRet, hp]
  rfl

/-- A return on an empty stack. -/
theorem exec_ret_of_nil {s : State} (h : s.stack = []) :
    exec .ret s = .next (s.raise .stackUnderflow (some (encode .ret)) none) := by
  have hp : s.preAdvance.pop = none := State.pop_eq_none.mpr h
  simp only [exec, execRet, hp]

end Sys2Proof.Machine
end

