-- ==== Sys2Proof/Laws/PerInstr.lean ====
section
/-! SUPPORT. Facts made per instruction. `TableRow`: the encoder's word lies in the row of 30_encoding.md R97 that the
instruction stands for, `op & mask = match`. -/

namespace Sys2Proof.Laws.TableRow

/-- The `match` and `mask` columns of R97. -/
def row : Instr → Word × Word
  | .cls => (0x00E0, 0xFFFF)
  | .ret => (0x00EE, 0xFFFF)
  | .jp _ => (0x1000, 0xF000)
  | .call _ => (0x2000, 0xF000)
  | .seImm _ _ => (0x3000, 0xF000)
  | .sneImm _ _ => (0x4000, 0xF000)
  | .seReg _ _ => (0x5000, 0xF00F)
  | .ldImm _ _ => (0x6000, 0xF000)
  | .addImm _ _ => (0x7000, 0xF000)
  | .ldReg _ _ => (0x8000, 0xF00F)
  | .or _ _ => (0x8001, 0xF00F)
  | .and _ _ => (0x8002, 0xF00F)
  | .xor _ _ => (0x8003, 0xF00F)
  | .addReg _ _ => (0x8004, 0xF00F)
  | .sub _ _ => (0x8005, 0xF00F)
  | .shr _ _ => (0x8006, 0xF00F)
  | .subn _ _ => (0x8007, 0xF00F)
  | .shl _ _ => (0x800E, 0xF00F)
  | .sneReg _ _ => (0x9000, 0xF00F)
  | .ldI _ => (0xA000, 0xF000)
  | .jpV0 _ => (0xB000, 0xF000)
  | .rnd _ _ => (0xC000, 0xF000)
  | .drw _ _ _ => (0xD000, 0xF000)
  | .skp _ => (0xE09E, 0xF0FF)
  | .sknp _ => (0xE0A1, 0xF0FF)
  | .ldVxDt _ => (0xF007, 0xF0FF)
  | .ldVxK _ => (0xF00A, 0xF0FF)
  | .ldDtVx _ => (0xF015, 0xF0FF)
  | .ldStVx _ => (0xF018, 0xF0FF)
  | .addI _ => (0xF01E, 0xF0FF)
  | .ldF _ => (0xF029, 0xF0FF)
  | .ldB _ => (0xF033, 0xF0FF)
  | .ldMemVx _ => (0xF055, 0xF0FF)
  | .ldVxMem _ => (0xF065, 0xF0FF)

/-- The word of `i` selects the row of `i`. -/
def Statement (i : Instr) : Prop := encode i &&& (row i).2 = (row i).1

/-- The bits the three masks keep. -/
theorem getLsbD_F000 (j : Nat) : (0xF000#16).getLsbD j = decide (12 ≤ j ∧ j < 16) := by
  by_cases h : j < 16
  · interval_cases j <;> rfl
  · rw [BitVec.getLsbD_of_ge _ _ (by omega)]; symm; simp; omega

theorem getLsbD_F00F (j : Nat) : (0xF00F#16).getLsbD j = decide (j < 4 ∨ 12 ≤ j ∧ j < 16) := by
  by_cases h : j < 16
  · interval_cases j <;> rfl
  · rw [BitVec.getLsbD_of_ge _ _ (by omega)]; symm; simp; omega

theorem getLsbD_F0FF (j : Nat) : (0xF0FF#16).getLsbD j = decide (j < 8 ∨ 12 ≤ j ∧ j < 16) := by
  by_cases h : j < 16
  · interval_cases j <;> rfl
  · rw [BitVec.getLsbD_of_ge _ _ (by omega)]; symm; simp; omega

theorem encNNN_mask (c : BitVec 4) (a : BitVec 12) : encNNN c a &&& 0xF000#16 = encNNN c 0 := by
  apply BitVec.eq_of_getLsbD_eq
  intro j hj
  simp only [BitVec.getLsbD_and, getLsbD_encNNN, getLsbD_F000]
  split_ifs with h
  · simp; omega
  · simp [hj]; omega

theorem encXYN_mask (c : BitVec 4) (x y : RegIdx) (n : BitVec 4) :
    encXYN c x y n &&& 0xF00F#16 = encXYN c 0 0 n := by
  apply BitVec.eq_of_getLsbD_eq
  intro j hj
  simp only [BitVec.getLsbD_and, getLsbD_encXYN, getLsbD_F00F]
  split_ifs with h h' h'' <;> simp [hj] <;> omega

theorem encXNN_mask (c : BitVec 4) (x : RegIdx) (nn : Byte) : encXNN c x nn &&& 0xF0FF#16 = encXNN c 0 nn := by
  apply BitVec.eq_of_getLsbD_eq
  intro j hj
  simp only [BitVec.getLsbD_and, getLsbD_encXNN, getLsbD_F0FF]
  split_ifs with h h' <;> simp [hj] <;> omega

theorem cls : Statement .cls := rfl
theorem ret : Statement .ret := rfl
theorem jp (nnn : BitVec 12) : Statement (.jp nnn) := encNNN_mask _ _
theorem call (nnn : BitVec 12) : Statement (.call nnn) := encNNN_mask _ _
theorem seImm (x : RegIdx) (nn : Byte) : Statement (.seImm x nn) := encNNN_mask _ _
theorem sneImm (x : RegIdx) (nn : Byte) : Statement (.sneImm x nn) := encNNN_mask _ _
theorem seReg (x y : RegIdx) : Statement (.seReg x y) := encXYN_mask _ _ _ _
theorem ldImm (x : RegIdx) (nn : Byte) : Statement (.ldImm x nn) := encNNN_mask _ _
theorem addImm (x : RegIdx) (nn : Byte) : Statement (.addImm x nn) := encNNN_mask _ _
theorem ldReg (x y : RegIdx) : Statement (.ldReg x y) := encXYN_mask _ _ _ _
theorem or (x y : RegIdx) : Statement (.or x y) := encXYN_mask _ _ _ _
theorem and (x y : RegIdx) : Statement (.and x y) := encXYN_mask _ _ _ _
theorem xor (x y : RegIdx) : Statement (.xor x y) := encXYN_mask _ _ _ _
theorem addReg (x y : RegIdx) : Statement (.addReg x y) := encXYN_mask _ _ _ _
theorem sub (x y : RegIdx) : Statement (.sub x y) := encXYN_mask _ _ _ _
theorem shr (x y : RegIdx) : Statement (.shr x y) := encXYN_mask _ _ _ _
theorem subn (x y : RegIdx) : Statement (.subn x y) := encXYN_mask _ _ _ _
theorem shl (x y : RegIdx) : Statement (.shl x y) := encXYN_mask _ _ _ _
theorem sneReg (x y : RegIdx) : Statement (.sneReg x y) := encXYN_mask _ _ _ _
theorem ldI (nnn : BitVec 12) : Statement (.ldI nnn) := encNNN_mask _ _
theorem jpV0 (nnn : BitVec 12) : Statement (.jpV0 nnn) := encNNN_mask _ _
theorem rnd (x : RegIdx) (nn : Byte) : Statement (.rnd x nn) := encNNN_mask _ _
theorem drw (x y : RegIdx) (n : Nat) : Statement (.drw x y n) := encNNN_mask _ _
theorem skp (x : RegIdx) : Statement (.skp x) := encXNN_mask _ _ _
theorem sknp (x : RegIdx) : Statement (.sknp x) := encXNN_mask _ _ _
theorem ldVxDt (x : RegIdx) : Statement (.ldVxDt x) := encXNN_mask _ _ _
theorem ldVxK (x : RegIdx) : Statement (.ldVxK x) := encXNN_mask _ _ _
theorem ldDtVx (x : RegIdx) : Statement (.ldDtVx x) := encXNN_mask _ _ _
theorem ldStVx (x : RegIdx) : Statement (.ldStVx x) := encXNN_mask _ _ _
theorem addI (x : RegIdx) : Statement (.addI x) := encXNN_mask _ _ _
theorem ldF (x : RegIdx) : Statement (.ldF x) := encXNN_mask _ _ _
theorem ldB (x : RegIdx) : Statement (.ldB x) := encXNN_mask _ _ _
theorem ldMemVx (x : RegIdx) : Statement (.ldMemVx x) := encXNN_mask _ _ _
theorem ldVxMem (x : RegIdx) : Statement (.ldVxMem x) := encXNN_mask _ _ _

end Sys2Proof.Laws.TableRow
end

