-- ==== Sys2Proof/Tests/Slice0.lean ====
section
/-! SUPPORT. The model's own tests. Expected words come from the match and mask columns of 30_encoding.md R97, expected
results from the vectors of 95_test_vectors.md (named in each comment) or the examples of the rules; the witnesses meet
the hypotheses of the statements. -/

namespace Sys2Proof.Tests

open Sys2Proof.Machine Sys2Proof.Claims

/-! ### WellFormed: an ill-formed term for its one check -/

theorem test_wellFormed_refuses_sixteen_rows : ¬ (Instr.drw 0 1 16).WellFormed := by decide
theorem test_wellFormed_accepts_fifteen_rows : (Instr.drw 0 1 15).WellFormed := by decide

/-! ### Decoding words written out from R97 -/

theorem test_decode_cls : decode 0b0000_0000_1110_0000 = .ok .cls := by decide
theorem test_decode_ret : decode 0b0000_0000_1110_1110 = .ok .ret := by decide
theorem test_decode_jp : decode 0b0001_0010_0011_0100 = .ok (.jp 0x234) := by decide
theorem test_decode_call : decode 0b0010_0011_0100_0101 = .ok (.call 0x345) := by decide
theorem test_decode_seImm : decode 0b0011_1010_0100_0010 = .ok (.seImm 0xA 0x42) := by decide
theorem test_decode_sneImm : decode 0b0100_1010_0100_0010 = .ok (.sneImm 0xA 0x42) := by decide
theorem test_decode_seReg : decode 0b0101_0001_0010_0000 = .ok (.seReg 1 2) := by decide
theorem test_decode_ldImm : decode 0b0110_1010_1111_1111 = .ok (.ldImm 0xA 0xFF) := by decide
theorem test_decode_addImm : decode 0b0111_1010_0000_0010 = .ok (.addImm 0xA 2) := by decide
theorem test_decode_ldReg : decode 0b1000_0001_0010_0000 = .ok (.ldReg 1 2) := by decide
theorem test_decode_or : decode 0b1000_0001_0010_0001 = .ok (.or 1 2) := by decide
theorem test_decode_and : decode 0b1000_0001_0010_0010 = .ok (.and 1 2) := by decide
theorem test_decode_xor : decode 0b1000_0001_0010_0011 = .ok (.xor 1 2) := by decide
theorem test_decode_addReg : decode 0b1000_0001_1111_0100 = .ok (.addReg 1 0xF) := by decide
theorem test_decode_sub : decode 0b1000_1111_0001_0101 = .ok (.sub 0xF 1) := by decide
theorem test_decode_shr : decode 0b1000_0001_0010_0110 = .ok (.shr 1 2) := by decide
theorem test_decode_subn : decode 0b1000_0001_0010_0111 = .ok (.subn 1 2) := by decide
theorem test_decode_shl : decode 0b1000_0001_0010_1110 = .ok (.shl 1 2) := by decide
theorem test_decode_sneReg : decode 0b1001_0001_0010_0000 = .ok (.sneReg 1 2) := by decide
theorem test_decode_ldI : decode 0b1010_1111_1111_1110 = .ok (.ldI 0xFFE) := by decide
theorem test_decode_jpV0 : decode 0b1011_0011_0000_0000 = .ok (.jpV0 0x300) := by decide
theorem test_decode_rnd : decode 0b1100_0011_0000_1111 = .ok (.rnd 3 0x0F) := by decide
theorem test_decode_drw : decode 0b1101_0001_0010_0101 = .ok (.drw 1 2 5) := by decide
theorem test_decode_skp : decode 0b1110_0101_1001_1110 = .ok (.skp 5) := by decide
theorem test_decode_sknp : decode 0b1110_0101_1010_0001 = .ok (.sknp 5) := by decide
theorem test_decode_ldVxDt : decode 0b1111_0110_0000_0111 = .ok (.ldVxDt 6) := by decide
theorem test_decode_ldVxK : decode 0b1111_0011_0000_1010 = .ok (.ldVxK 3) := by decide
theorem test_decode_ldDtVx : decode 0b1111_0110_0001_0101 = .ok (.ldDtVx 6) := by decide
theorem test_decode_ldStVx : decode 0b1111_0110_0001_1000 = .ok (.ldStVx 6) := by decide
theorem test_decode_addI : decode 0b1111_0011_0001_1110 = .ok (.addI 3) := by decide
theorem test_decode_ldF : decode 0b1111_0100_0010_1001 = .ok (.ldF 4) := by decide
theorem test_decode_ldB : decode 0b1111_0101_0011_0011 = .ok (.ldB 5) := by decide
theorem test_decode_ldMemVx : decode 0b1111_0010_0101_0101 = .ok (.ldMemVx 2) := by decide
theorem test_decode_ldVxMem : decode 0b1111_1111_0110_0101 = .ok (.ldVxMem 0xF) := by decide

/-- DF1, SK7, AL24, SK15, IM18 (R98): one illegal word of each set. -/
theorem test_decode_illegal :
    decode 0x0123 = .error (.unsupported 0x0123) ∧ decode 0x5121 = .error (.unsupported 0x5121) ∧
    decode 0x8128 = .error (.unsupported 0x8128) ∧ decode 0x9128 = .error (.unsupported 0x9128) ∧
    decode 0xE59F = .error (.unsupported 0xE59F) ∧ decode 0xF01F = .error (.unsupported 0xF01F) := by decide

theorem test_decodeBytes_takes_two : decodeBytes [0x60, 0x0A, 0x70] = .ok (.ldImm 0 0x0A, [0x70]) := by decide
theorem test_decodeBytes_short : decodeBytes [0x60] = .error .tooShort := by decide
theorem test_decodeTableWord : decodeTableWord 16 0xD125 = some (.drw 1 2 5) := by decide

/-! ### One step on a small state -/

/-- The default reset state with some registers, and `I`, set. -/
def withRegs (vs : List (RegIdx × Byte)) (i : Word := 0) : State :=
  vs.foldl (fun s p => s.setReg p.1 p.2) { State.reset with i := i }

/-- The next event is `Step(K, R)`. -/
def inputs (k : Keys) (r : Byte) (s : State) : State := { s with env := { s.env with events := [.step k r] } }

/-- What one step on the word `w`, placed at `PC`, leaves, seen through `f`. -/
def after {α : Type} (s : State) (w : Nat) (f : State → α) : Option α :=
  match step (s.withFetchWord 16 w) with
  | .next t => some (f t)
  | _ => none

/-- DR1 (R250). -/
theorem test_cls : after { State.reset with fb := flipPixel (flipPixel blankScreen 0 0) 63 31 } 0x00E0
    (fun t => (t.fb == blankScreen, t.pc)) = some (true, 0x202) := by decide
/-- CF7 (R140). -/
theorem test_ret : after { State.reset with stack := [0x202, 0x40A] } 0x00EE (fun t => (t.pc, t.stack)) =
    some (0x40A, [0x202]) := by decide
/-- CF8 (R140, R271). -/
theorem test_ret_underflow : after State.reset 0x00EE (fun t => (t.pc, t.halted, t.fault)) =
    some (0x200, true, some ⟨.stackUnderflow, 0x200, some 0x00EE, none⟩) := by decide
/-- CF1 (R141). -/
theorem test_jp : after State.reset 0x1234 (·.pc) = some 0x234 := by decide
/-- CF3 (R142). -/
theorem test_call : after State.reset 0x2345 (fun t => (t.pc, t.stack)) = some (0x345, [0x202]) := by decide
/-- CF6 (R142): depth 2. -/
theorem test_call_overflow :
    after { State.reset with stack := [0x300, 0x302], cfg := { defaultConfig with stackDepth := 2 } } 0x2345
      (fun t => (t.pc, t.stack, t.fault)) =
    some (0x200, [0x300, 0x302], some ⟨.stackOverflow, 0x200, some 0x2345, none⟩) := by decide
/-- SK1, SK2 (R160). -/
theorem test_seImm : after (withRegs [(0xA, 0x42)]) 0x3A42 (·.pc) = some 0x204 ∧
    after (withRegs [(0xA, 0x41)]) 0x3A42 (·.pc) = some 0x202 := by decide
/-- SK3, SK4 (R161). -/
theorem test_sneImm : after (withRegs [(0xA, 0x41)]) 0x4A42 (·.pc) = some 0x204 ∧
    after (withRegs [(0xA, 0x42)]) 0x4A42 (·.pc) = some 0x202 := by decide
/-- SK5 (R162). -/
theorem test_seReg : after (withRegs [(1, 7), (2, 7)]) 0x5120 (·.pc) = some 0x204 := by decide
/-- SK8 (R163). -/
theorem test_sneReg : after (withRegs [(1, 7), (2, 8)]) 0x9120 (·.pc) = some 0x204 := by decide
/-- SK10, SK12 (R164, R166). -/
theorem test_skp : after (inputs 0x1000 0 (withRegs [(5, 0x0C)])) 0xE59E (·.pc) = some 0x204 ∧
    after (inputs 0x1000 0 (withRegs [(5, 0x1C)])) 0xE59E (·.pc) = some 0x202 := by decide
/-- SK13, SK14 (R165, R166). -/
theorem test_sknp : after (inputs 0x1000 0 (withRegs [(5, 0x1C)])) 0xE5A1 (·.pc) = some 0x204 ∧
    after (inputs 0x1000 0 (withRegs [(5, 0x0C)])) 0xE5A1 (·.pc) = some 0x202 := by decide
/-- AL1 (R180). -/
theorem test_ldImm : after State.reset 0x6AFF (·.reg 0xA) = some 0xFF := by decide
/-- AL2 (R181). -/
theorem test_addImm : after (withRegs [(0xA, 0xFF), (0xF, 0x55)]) 0x7A02 (fun t => (t.reg 0xA, t.reg 0xF)) =
    some (0x01, 0x55) := by decide
/-- AL4 (R182). -/
theorem test_ldReg : after (withRegs [(2, 0x9C)]) 0x8120 (·.reg 1) = some 0x9C := by decide
/-- AL5 (R183). -/
theorem test_or : after (withRegs [(1, 0xF0), (2, 0x0F), (0xF, 0x77)]) 0x8121 (fun t => (t.reg 1, t.reg 0xF)) =
    some (0xFF, 0x77) := by decide
/-- AL6 (R184). -/
theorem test_and : after (withRegs [(1, 0xF3), (2, 0x3C)]) 0x8122 (·.reg 1) = some 0x30 := by decide
/-- AL7 (R185). -/
theorem test_xor : after (withRegs [(1, 0xF3), (2, 0x3C)]) 0x8123 (·.reg 1) = some 0xCF := by decide
/-- AL9 (R186). -/
theorem test_addReg : after (withRegs [(1, 0xFF), (2, 0x01)]) 0x8124 (fun t => (t.reg 1, t.reg 0xF)) =
    some (0x00, 1) := by decide
/-- AL10, AL11 (R186): `VF` as destination and as operand. -/
theorem test_addReg_vf : after (withRegs [(0xF, 0xFF), (1, 0x02)]) 0x8F14 (·.reg 0xF) = some 1 ∧
    after (withRegs [(1, 0x10), (0xF, 0x20)]) 0x81F4 (fun t => (t.reg 1, t.reg 0xF)) = some (0x30, 0) := by decide
/-- AL13 (R187). -/
theorem test_sub : after (withRegs [(1, 0x00), (2, 0x01)]) 0x8125 (fun t => (t.reg 1, t.reg 0xF)) =
    some (0xFF, 0) := by decide
/-- AL14 (R187): `X = Y`. -/
theorem test_sub_same : after (withRegs [(1, 0x99)]) 0x8115 (fun t => (t.reg 1, t.reg 0xF)) = some (0x00, 1) := by
  decide
/-- AL16 (R188). -/
theorem test_shr : after (withRegs [(1, 0x05), (2, 0x80)]) 0x8126 (fun t => (t.reg 1, t.reg 0xF)) =
    some (0x02, 1) := by decide
/-- AL17 (R188): `P.shift_copy_vy`. -/
theorem test_shr_copy :
    after { withRegs [(1, 0x05), (2, 0x80)] with cfg := { defaultConfig with shiftCopyVy := true } } 0x8126
      (fun t => (t.reg 1, t.reg 0xF)) = some (0x40, 0) := by decide
/-- AL19 (R189). -/
theorem test_subn : after (withRegs [(1, 0x10), (2, 0x01)]) 0x8127 (fun t => (t.reg 1, t.reg 0xF)) =
    some (0xF1, 0) := by decide
/-- AL21 (R190). -/
theorem test_shl : after (withRegs [(1, 0x81), (2, 0x01)]) 0x812E (fun t => (t.reg 1, t.reg 0xF)) =
    some (0x02, 1) := by decide
/-- AL22 (R190): `P.shift_copy_vy`. -/
theorem test_shl_copy :
    after { withRegs [(1, 0x81), (2, 0x01)] with cfg := { defaultConfig with shiftCopyVy := true } } 0x812E
      (fun t => (t.reg 1, t.reg 0xF)) = some (0x02, 0) := by decide
/-- AL26 (R191). -/
theorem test_rnd : after (inputs 0 0xA7 State.reset) 0xC30F (·.reg 3) = some 0x07 := by decide
/-- IM1 (R210). -/
theorem test_ldI : after State.reset 0xAFFF (·.i) = some 0x0FFF := by decide
/-- CF10 (R143). -/
theorem test_jpV0 : after (withRegs [(0, 0xFF)]) 0xBFFF (·.pc) = some 0x10FE := by decide
/-- IM5 (R211): the 16-bit wrap. -/
theorem test_addI : after (withRegs [(3, 0x20)] 0xFFF0) 0xF31E (fun t => (t.i, t.reg 0xF)) = some (0x0010, 1) := by
  decide
/-- IM4 (R211): `P.fx1e_sets_vf = false`. -/
theorem test_addI_noFlag :
    after { withRegs [(3, 1), (0xF, 0x55)] 0x0FFF with cfg := { defaultConfig with fx1eSetsVf := false } } 0xF31E
      (fun t => (t.i, t.reg 0xF)) = some (0x1000, 0x55) := by decide
/-- IM8 (R212). -/
theorem test_ldF : after (withRegs [(4, 0xFF)]) 0xF429 (·.i) = some 0x04FB := by decide
/-- IM11 (R213): the top of memory. -/
theorem test_ldB : after (withRegs [(5, 0x80)] 0x0FFD) 0xF533 (fun t => t.mem.readBytes 0xFFD 3) =
    some [1, 2, 8] := by decide
/-- IM12 (R213, R64). -/
theorem test_ldB_fault : after (withRegs [(5, 0x80)] 0x0FFE) 0xF533 (fun t => (t.mem.read 0xFFE, t.fault)) =
    some (0, some ⟨.outOfBoundsAccess, 0x200, some 0xF533, some 0x1000⟩) := by decide
/-- IM17 (R214). -/
theorem test_ldMemVx : after (withRegs [(0, 0x11), (1, 0x22), (2, 0x33)] 0x300) 0xF155
    (fun t => (t.mem.readBytes 0x300 3, t.i)) = some ([0x11, 0x22, 0], 0x300) := by decide
/-- IM15 (R214, R64). -/
theorem test_ldMemVx_fault : after (withRegs [(0, 1), (1, 2), (2, 3)] 0x0FFE) 0xF255
    (fun t => (t.mem.readBytes 0xFFE 2, t.fault)) =
    some ([0, 0], some ⟨.outOfBoundsAccess, 0x200, some 0xF255, some 0x1000⟩) := by decide
/-- IM16 (R215): the default font's first bytes. -/
theorem test_ldVxMem : after State.reset 0xFF65 (fun t => t.v.toList) =
    some [0xF0, 0x90, 0x90, 0x90, 0xF0, 0x20, 0x60, 0x20, 0x20, 0x70, 0xF0, 0x10, 0xF0, 0x80, 0xF0, 0xF0] := by decide
/-- TM1 (R230). -/
theorem test_ldVxDt : after { State.reset with dt := 0x2A } 0xF607 (·.reg 6) = some 0x2A := by decide
/-- TM2 (R231). -/
theorem test_ldDtVx : after (withRegs [(6, 0x3C)]) 0xF615 (fun t => (t.dt, t.st)) = some (60, 0) := by decide
/-- TM3 (R232, R39). -/
theorem test_ldStVx : after (withRegs [(6, 1)]) 0xF618 (fun t => (t.dt, t.st, t.toneEn)) = some (0, 1, true) := by
  decide
/-- KW1 (R233). -/
theorem test_ldVxK_begins : after (inputs 0x0010 0 State.reset) 0xF30A (fun t => (t.kwActive, t.kwPrev, t.pc)) =
    some (true, 0x0010, 0x200) := by decide
/-- KW3, KW5 (R233, R234, R235): the lowest key of the edge set, in either mode. -/
theorem test_ldVxK_completes :
    after (inputs 0 0 { State.reset with kwActive := true, kwPrev := 0x0210 }) 0xF30A
      (fun t => (t.reg 3, t.kwActive, t.kwPrev, t.pc)) = some (4, false, 0, 0x202) ∧
    after (inputs 0x0114 0
        { State.reset with kwActive := true, kwPrev := 0x0010, cfg := { defaultConfig with keywaitEdge := .press } })
      0xF30A (fun t => (t.reg 3, t.pc)) = some (2, 0x202) := by decide
/-- DR5 (R251, R252): the horizontal wrap; columns 62, 63 and 0 to 5 of row 31. -/
theorem test_drw : after { withRegs [(1, 62), (2, 31)] 0x300 with mem := [(0x300, 0xFF)] } 0xD121
    (fun t => (t.fb.toList.take 31 == List.replicate 31 0, t.fb[31], t.reg 0xF)) =
    some (true, 0xC00000000000003F, 0) := by decide
/-- DR3 (R251): a collision. -/
theorem test_drw_collision : after { State.reset with fb := flipPixel blankScreen 0 0 } 0xD011
    (fun t => (t.fb[0], t.reg 0xF)) = some (0xE, 1) := by decide

/-! ### The step, the tick and reset -/

/-- DF4 (R122): the last whole word. -/
theorem test_fetch_last_word : after { State.reset with pc := 0xFFE } 0x6001 (fun t => (t.reg 0, t.pc)) =
    some (1, 0x1000) := by decide
/-- The outcome of `step` seen through `f`. -/
def stepped {α : Type} (s : State) (f : State → α) : Option α :=
  match step s with
  | .next t => some (f t)
  | _ => none

/-- DF5, CF10 (R122). -/
theorem test_fetch_outside :
    stepped (inputs 0 0 { State.reset with pc := 0xFFF }) (·.fault) =
      some (some ⟨.outOfBoundsAccess, 0xFFF, none, some 0x1000⟩) ∧
    stepped (inputs 0 0 { State.reset with pc := 0x10FE }) (·.fault) =
      some (some ⟨.outOfBoundsAccess, 0x10FE, none, some 0x10FE⟩) := by decide
/-- DF7 (R303). -/
theorem test_empty_rom : stepped (inputs 0 0 State.reset) (fun t => (t.pc, t.halted, t.fault)) =
    some (0x200, true, some ⟨.unsupportedOpcode, 0x200, some 0, none⟩) := by decide
/-- The state with a Tick as the next event. -/
def ticking (s : State) : State := { s with env := { s.env with events := [.tick] } }
/-- TM6 (R276). -/
theorem test_tick : stepped (ticking { State.reset with st := 2 }) (fun t => (t.dt, t.st, t.toneEn)) =
    some (0, 1, true) := by decide
/-- TM7 (R278). -/
theorem test_tick_halted : stepped (ticking { State.reset with dt := 3, st := 3, halted := true })
    (fun t => (t.dt, t.st, t.toneEn)) = some (3, 3, false) := by decide
/-- R301: a ROM is loaded from 0x200. -/
theorem test_reset_loads_rom :
    stepped { State.reset with halted := true, env := { State.reset.env with
        events := [.reset { defaultConfig with rom := [0x60, 0x0A] }] } }
      (fun t => (t.mem.readBytes 0x1FF 4, t.halted)) = some ([0, 0x60, 0x0A, 0], false) := by decide +kernel
/-- Memory keeps its canonical form: writing what an unlisted cell reads as removes the cell (log 7). -/
theorem test_memory_canonical : Memory.write (Memory.write [] 0x300 5) 0x300 0 = [] ∧
    Memory.write [] 0x000 0xF0 = [] ∧ Memory.write [] 0x1000 5 = [] := by decide

/-! ### Witnesses: states and operands that meet the hypotheses of the statements -/

/-- A state at 0x200 holding one opcode, with a Step next. -/
def oneWord (w : Nat) : State := State.reset.withFetchWord 16 w

theorem witness_DecodeInvertsEncode : (Instr.drw 15 0 15).WellFormed := by decide
theorem witness_EncodeInvertsDecode : decode 0xDF0F = .ok (.drw 15 0 15) := by decide
/-- Each set of R98 at its ends, and legal words beside them. -/
theorem witness_DecodeRejectsExactlyIllegalWords :
    (IllegalWord 0x0FFF ∧ IllegalWord 0x5FF1 ∧ IllegalWord 0x8008 ∧ IllegalWord 0x9001 ∧ IllegalWord 0xE09D ∧
      IllegalWord 0xFFFF) ∧
    ¬ IllegalWord 0x00EE ∧ ¬ IllegalWord 0x1000 ∧ ¬ IllegalWord 0x5FF0 ∧ ¬ IllegalWord 0x8007 ∧ ¬ IllegalWord 0x800E ∧
      ¬ IllegalWord 0xFF65 := by
  refine ⟨⟨?_, ?_, ?_, ?_, ?_, ?_⟩, ?_, ?_, ?_, ?_, ?_, ?_⟩ <;> decide
theorem witness_StepRunsDecodedInstruction :
    (oneWord 0x6A01).halted = false ∧ (oneWord 0x6A01).nextEvent = .step 0 0 ∧ (oneWord 0x6A01).pc.toNat < 0xFFF ∧
    decode (bigEndian ((oneWord 0x6A01).mem.read (oneWord 0x6A01).pc.toNat)
      ((oneWord 0x6A01).mem.read ((oneWord 0x6A01).pc.toNat + 1))) = .ok (.ldImm 0xA 1) := by decide
theorem witness_StepRunsEncodedInstruction :
    (Instr.ldImm 0xA 1).WellFormed ∧ (oneWord 0x6A01).halted = false ∧ (oneWord 0x6A01).nextEvent = .step 0 0 ∧
    (oneWord 0x6A01).pc.toNat < 0xFFF ∧
    (oneWord 0x6A01).mem.read (oneWord 0x6A01).pc.toNat = highByte (encode (.ldImm 0xA 1)) ∧
    (oneWord 0x6A01).mem.read ((oneWord 0x6A01).pc.toNat + 1) = lowByte (encode (.ldImm 0xA 1)) := by decide
theorem witness_FetchIsBigEndianAndBounded :
    ({ State.reset with pc := 0xFFE } : State).pc.toNat < 0xFFF ∧
    0xFFF ≤ (inputs 0 0 { State.reset with pc := 0xFFF }).pc.toNat ∧
    (inputs 0 0 { State.reset with pc := 0xFFF }).halted = false ∧
    (inputs 0 0 { State.reset with pc := 0xFFF }).nextEvent = .step 0 0 := by decide
theorem witness_IllegalWordHaltsWithRecord :
    (oneWord 0x8128).halted = false ∧ (oneWord 0x8128).nextEvent = .step 0 0 ∧ IllegalWord 0x8128 := by decide
theorem witness_IllegalWordHaltsWithRecord_fetch : fetch (oneWord 0x8128) = .ok 0x8128 := rfl
theorem witness_HaltedCoreChangesNothing :
    (inputs 0 0 { State.reset with halted := true }).halted = true ∧
    (inputs 0 0 { State.reset with halted := true }).nextEvent = .step 0 0 ∧
    (ticking { State.reset with halted := true }).halted = true ∧
    (ticking { State.reset with halted := true }).nextEvent = .tick := by decide
theorem witness_TickCountsDown :
    (ticking { State.reset with dt := 1, st := 0 }).halted = false ∧
    (ticking { State.reset with dt := 1, st := 0 }).nextEvent = .tick := by decide
/-- The largest ROM and the smallest stack. -/
def largestRom : Config := { defaultConfig with stackDepth := 1, rom := List.replicate 3584 0xAA }
/-- The state with a Reset as the next event. -/
def resetting (p : Config) : State := { State.reset with env := { State.reset.env with events := [.reset p] } }
theorem witness_ResetGivesEveryComponent :
    (resetting largestRom).nextEvent = .reset largestRom ∧ largestRom.wf := by
  refine ⟨rfl, by decide, ?_⟩
  show (List.replicate 3584 (0xAA : Byte)).length ≤ 3584
  rw [List.length_replicate]
/-- The ends of the address ranges of R42, seen after a Reset: the last glyph byte, the gap, the ROM, the byte after it. -/
theorem witness_ResetGivesEveryComponent_ranges :
    stepped (resetting { defaultConfig with rom := [0x60, 0x0A] })
      (fun t => (t.mem.readBytes 0x4F 2, t.mem.readBytes 0x1FF 4, t.mem.read 0xFFF)) =
      some ([0x80, 0], [0, 0x60, 0x0A, 0], 0) := by decide +kernel
theorem witness_OversizedRomIsRejected :
    (resetting { defaultConfig with rom := List.replicate 3585 0 }).nextEvent =
      .reset { defaultConfig with rom := List.replicate 3585 0 } ∧
    3584 < ({ defaultConfig with rom := List.replicate 3585 0 } : Config).rom.length := by
  refine ⟨rfl, ?_⟩
  show 3584 < (List.replicate 3585 (0 : Byte)).length
  rw [List.length_replicate]; decide
theorem witness_EmptyRomFaultsAtEntry :
    defaultConfig.rom = [] ∧
    construct defaultConfig { State.reset.env with events := [.step 0 0] } =
      .next (built defaultConfig { State.reset.env with events := [.step 0 0] }) ∧
    (built defaultConfig { State.reset.env with events := [.step 0 0] }).nextEvent = .step 0 0 :=
  ⟨rfl, rfl, rfl⟩
/-- 15 entries of 16, then all 16. -/
theorem witness_CallPushesReturnAddress :
    ({ State.reset with stack := List.replicate 15 0x300 } : State).stack.length ≠ State.reset.cfg.stackDepth ∧
    ({ State.reset with stack := List.replicate 16 0x300 } : State).stack.length = State.reset.cfg.stackDepth := by
  decide
theorem witness_ReturnPopsLastPushed :
    ({ State.reset with stack := [0x1000] } : State).stack = [] ++ [0x1000] ∧ State.reset.stack = [] := by decide
/-- As many calls as the stack holds. -/
theorem witness_CallsThenReturnsComeBack :
    (List.replicate 16 (0x300 : BitVec 12)) ≠ [] ∧ State.reset.halted = false ∧
    State.reset.stack.length + (List.replicate 16 (0x300 : BitVec 12)).length ≤ State.reset.cfg.stackDepth := by decide
theorem witness_ShiftsSetShiftedOutBitLast :
    (0x81 : Nat) = (if (withRegs [(1, 0x81)]).cfg.shiftCopyVy then ((withRegs [(1, 0x81)]).reg 2).toNat
      else ((withRegs [(1, 0x81)]).reg 1).toNat) := by decide
theorem witness_BcdStoresThreeDigits :
    (withRegs [(5, 0xFF)] 0xFFD).mem.wf ∧ (withRegs [(5, 0xFF)] 0xFFD).i.toNat + 2 ≤ 0xFFF := by decide
theorem witness_StoreBlockWritesRegisters :
    (withRegs [] 0xFF0).mem.wf ∧ (withRegs [] 0xFF0).i.toNat + (15 : RegIdx).val ≤ 0xFFF := by decide
theorem witness_LoadBlockReadsMemory : (withRegs [] 0xFFF).i.toNat + (0 : RegIdx).val ≤ 0xFFF := by decide
theorem witness_TransfersFaultOutsideMemory :
    0xFFF < (withRegs [] 0xFFE).i.toNat + 2 ∧ 0xFFF < (withRegs [] 0xFF1).i.toNat + (15 : RegIdx).val ∧
    0 < 2 ∧ 0xFFF < (withRegs [] 0xFFF).i.toNat + 2 - 1 ∧ 0xFFF < (withRegs [] 0x1000).i.toNat + (0 : RegIdx).val := by
  decide
theorem witness_StoreIsSeenByNextFetch :
    (withRegs [] 0x202).mem.wf ∧ 1 ≤ (1 : RegIdx).val ∧ (withRegs [] 0x202).i.toNat = (withRegs [] 0x202).pc.toNat + 2 ∧
    (withRegs [] 0x202).i.toNat + (1 : RegIdx).val ≤ 0xFFF := by decide
theorem witness_DelayTimerReadsRemainder : (withRegs [(3, 3)]).halted = false := by decide
theorem witness_ToneLastsSoundTimerTicks : (withRegs [(3, 2)]).halted = false := by decide
/-- A wait of key 15, going on and completing. -/
def waitingFor (prev now : Keys) : State :=
  { State.reset with kwActive := true, kwPrev := prev, env := { State.reset.env with keys := now } }
theorem witness_KeyWaitCompletesOnEdge :
    State.reset.kwActive = false ∧
    ((waitingFor 0x8000 0x8001).kwActive = true ∧ ∀ k < 16, ¬ IsEdge (waitingFor 0x8000 0x8001) k) ∧
    (15 < 16 ∧ (waitingFor 0x8000 0x0001).kwActive = true ∧ IsEdge (waitingFor 0x8000 0x0001) 15 ∧
      ∀ j < 15, ¬ IsEdge (waitingFor 0x8000 0x0001) j) := by decide
/-- The same in the press mode. -/
theorem witness_KeyWaitCompletesOnEdge_press :
    IsEdge { waitingFor 0x0001 0x8001 with cfg := { defaultConfig with keywaitEdge := .press } } 15 ∧
    ∀ j < 15, ¬ IsEdge { waitingFor 0x0001 0x8001 with cfg := { defaultConfig with keywaitEdge := .press } } j := by
  decide
/-- One row at the last byte, and no row at an `I` outside memory. -/
theorem witness_DrawFlipsSpriteAndReportsCollision :
    (1 ≤ 15 ∧ SpriteInMemory (withRegs [] 0xFFF) 1) ∧ (0 ≤ 15 ∧ SpriteInMemory (withRegs [] 0x2000) 0) := by decide
theorem witness_DrawFlipsSprite_covered : SpriteCovers (withRegs [(0, 63)] 0) 0 1 1 2 0 :=
  ⟨0, by decide, 3, by decide, by decide, by decide, by decide⟩
theorem witness_DrawTwiceRestoresScreen :
    15 ≤ 15 ∧ (0 : RegIdx) ≠ vf ∧ (14 : RegIdx) ≠ vf ∧ SpriteInMemory (withRegs [] 0xFF1) 15 := by decide
theorem witness_StepsAndTicksAnswerNext :
    (∀ p, (inputs 0 0 State.reset).nextEvent ≠ .reset p) ∧ ∀ p, (ticking State.reset).nextEvent ≠ .reset p :=
  ⟨(fun _ h => nomatch h), (fun _ h => nomatch h)⟩
/-- RET with nothing to return to. -/
theorem witness_FaultingInstructionCommitsNothing :
    exec .ret State.reset = .next (State.reset.raise .stackUnderflow (some 0x00EE) none) ∧
    State.reset.halted = false ∧ (State.reset.raise .stackUnderflow (some 0x00EE) none).halted = true :=
  ⟨rfl, rfl, rfl⟩
theorem witness_OtherInstructionsNeverFault :
    ¬ MayFault (.jp 0x234) ∧ exec (.jp 0x234) State.reset = .next (State.reset.setPc 0x234) := ⟨id, rfl⟩
theorem witness_OnlyCallAndReturnTouchStack :
    exec (.call 0x345) State.reset = .next { State.reset with stack := [0x202], pc := 0x345 } ∧
    ({ State.reset with stack := [0x202], pc := 0x345 } : State).stack ≠ State.reset.stack := ⟨rfl, by decide⟩
/-- FX55 writes a byte at 0xFFF. -/
theorem witness_OnlyBcdAndStoreBlockChangeMemory :
    (withRegs [(0, 5)] 0xFFF).mem.wf ∧
    exec (.ldMemVx 0) (withRegs [(0, 5)] 0xFFF) =
      .next { withRegs [(0, 5)] 0xFFF with pc := 0x202, mem := [(0xFFF, 5)] } ∧
    Memory.read [(0xFFF, 5)] 0xFFF ≠ (withRegs [(0, 5)] 0xFFF).mem.read 0xFFF := ⟨by decide, rfl, by decide⟩
theorem witness_WritersOfSpecialRegisters :
    exec (.ldI 0x300) State.reset = .next { State.reset with i := 0x300, pc := 0x202 } ∧
    ({ State.reset with i := 0x300, pc := 0x202 } : State).i ≠ State.reset.i := ⟨rfl, by decide⟩
theorem witness_WritersOfSpecialRegisters_timers :
    exec (.ldDtVx 6) (withRegs [(6, 1)]) = .next { withRegs [(6, 1)] with dt := 1, pc := 0x202 } ∧
    exec (.ldStVx 6) (withRegs [(6, 1)]) = .next { withRegs [(6, 1)] with st := 1, pc := 0x202 } ∧
    (withRegs [(6, 1)]).dt ≠ 1 ∧ (withRegs [(6, 1)]).st ≠ 1 := ⟨rfl, rfl, by decide, by decide⟩
theorem witness_WritersOfSpecialRegisters_keyWait :
    exec (.ldVxK 3) State.reset = .next { State.reset with kwActive := true } ∧ State.reset.kwActive ≠ true :=
  ⟨rfl, by decide⟩
theorem witness_WritersOfSpecialRegisters_screen :
    exec .cls { State.reset with fb := flipPixel blankScreen 63 31 } =
      .next { State.reset with fb := blankScreen, pc := 0x202 } ∧
    blankScreen ≠ flipPixel blankScreen 63 31 := ⟨rfl, by decide⟩
theorem witness_ConfigurationIsFixed :
    (∀ p, (ticking State.reset).nextEvent ≠ .reset p) ∧
    step (ticking State.reset) = .next (ticking State.reset).takeEvent.tick :=
  ⟨(fun _ h => nomatch h), rfl⟩
theorem witness_OtherInstructionsIgnoreInputs :
    ¬ ReadsInputs (.jp 0x234) ∧ exec (.jp 0x234) State.reset = .next (State.reset.setPc 0x234) := ⟨id, rfl⟩
theorem witness_InstructionFaultShowsOnPorts :
    TakesFault (.ldB 0) (withRegs [] 0xFFE) .outOfBoundsAccess (some 0x1000) ∧
    exec (.ldB 0) (withRegs [] 0xFFE) =
      .next ((withRegs [] 0xFFE).raise .outOfBoundsAccess (some 0xF033) (some 0x1000)) := ⟨rfl, rfl⟩

theorem witness_InstructionFaultShowsOnPorts_stack :
    TakesFault .ret State.reset .stackUnderflow none ∧
    TakesFault (.call 0x345) { State.reset with stack := [0x300], cfg := { defaultConfig with stackDepth := 1 } }
      .stackOverflow none := ⟨rfl, rfl⟩

/-- The causes no instruction raises: an illegal word, and a fetch fault, which has no opcode; and no fault at all. -/
theorem witness_FaultPortsShowRecord :
    (State.reset.raise .unsupportedOpcode (some 0x0000) none).fault =
      some ⟨.unsupportedOpcode, 0x200, some 0x0000, none⟩ ∧
    (State.reset.raise .outOfBoundsAccess none (some 0x10FE)).fault =
      some ⟨.outOfBoundsAccess, 0x200, none, some 0x10FE⟩ ∧
    (State.reset.raise .outOfBoundsAccess none (some 0x10FE)).halted = true ∧ State.reset.fault = none := by decide
/-- R38, R270: the ports after a Step on an illegal word, and after one whose fetch faults. -/
theorem test_fault_ports :
    after State.reset 0x8128 (fun t => (t.faultCausePort, t.faultOpcodeValid, t.faultOpcodePort, t.faultAddrValid)) =
      some (1, true, 0x8128, false) ∧
    stepped (inputs 0 0 { State.reset with pc := 0xFFF })
      (fun t => (t.faultCausePort, t.faultPcPort, t.faultOpcodeValid, t.faultOpcodePort, t.faultAddrPort)) =
      some (3, 0xFFF, false, 0, 0x1000) := by decide

/-- A wait in progress at 0x200, its FX0A in memory, with a Step next. -/
def waiting : State :=
  { State.reset with
    mem := [(0x200, 0xF3), (0x201, 0x0A)]
    kwActive := true
    kwPrev := 0x0020
    env := { State.reset.env with events := [.step 0 0] } }

theorem waiting_onKeyWait : waiting.onKeyWait := ⟨3, fetch_eq_ok.mpr (by decide)⟩
/-- The wait meets the invariant. -/
theorem witness_Inv : waiting.Inv where
  cfg := by decide
  mem := by decide
  depth := by decide
  entries := by simp [waiting, State.reset]
  pc := by decide
  latch := rfl
  record := fun _ h => absurd ((show waiting.fault = none from rfl).symm.trans h) (by simp)
  idle := fun h => absurd h (by decide)
  waiting := fun _ => ⟨waiting_onKeyWait, rfl⟩
theorem witness_EveryStepKeepsInv : waiting.Inv ∧ ∃ t, step waiting = .next t := ⟨witness_Inv, _, rfl⟩
theorem witness_WaitIsContinuedByKeyWait :
    waiting.Inv ∧ waiting.kwActive = true ∧ waiting.nextEvent = .step 0 0 := ⟨witness_Inv, rfl, rfl⟩

end Sys2Proof.Tests
end

section
/-! The configuration is a constant of the core (00_scope.md R5): no instruction, no Step and no Tick writes it. -/

namespace Sys2Proof.Machine

/-- A checked transfer keeps the configuration, whether it runs or faults. -/
theorem State.ifInRange_cfg {s t : State} (ins : Instr) (n : Nat) (ht : t.cfg = s.cfg) :
    (s.ifInRange ins n t).cfg = s.cfg := by
  obtain ⟨-, h⟩ | ⟨-, h⟩ := ifInRange_cases s ins n t
  · rw [h, ht]
  · rw [h, State.raise_cfg]

/-- No instruction writes the configuration, on a completing path or a faulting one. -/
theorem exec_keeps_cfg {i : Instr} {s t : State} (h : exec i s = .next t) : t.cfg = s.cfg := by
  cases i with
  | ret =>
    obtain hs | ⟨st, r, hs⟩ := s.stack.eq_nil_or_concat'
    · rw [exec_ret_of_nil hs] at h; cases h; rfl
    · rw [exec_ret_of_append hs] at h; cases h; rfl
  | call nnn =>
    by_cases hs : s.stack.length = s.cfg.stackDepth
    · rw [exec_call_of_full nnn hs] at h; cases h; rfl
    · rw [exec_call_of_room nnn hs] at h; cases h; rfl
  | seImm | sneImm | seReg | sneReg | skp | sknp => cases h; exact State.skipIf_cfg _ _
  | ldB | ldMemVx | ldVxMem => cases h; exact State.ifInRange_cfg _ _ rfl
  | drw x y n =>
    cases h
    split
    · rfl
    · exact State.ifInRange_cfg _ _ rfl
  | addI x => cases h; split <;> rfl
  | ldVxK x =>
    cases h
    split
    · split <;> rfl
    · rfl
  | _ => cases h; rfl

/-- A Step event keeps the configuration: the core is halted, or the fetch or the decode faults, or one instruction
runs. -/
theorem stepEvent_keeps_cfg {s t : State} {k : Keys} {r : Byte} (h : s.stepEvent k r = .next t) : t.cfg = s.cfg := by
  obtain ⟨-, e⟩ | ⟨-, a, -, e⟩ | ⟨-, op, d, -, -, e⟩ | ⟨-, op, i, -, -, e⟩ := stepEvent_cases s k r
  · rw [e] at h; cases h; rfl
  · rw [e] at h; cases h; rfl
  · rw [e] at h; cases h; rfl
  · rw [e] at h; rw [exec_keeps_cfg h, State.sample_cfg]

/-- Settles O50: by the next event, which is a Step or a Tick. -/
theorem configurationIsFixed : Obligations.ConfigurationIsFixed := by
  intro s t hreset h
  cases he : s.nextEvent with
  | step k r =>
    rw [step_of_step he] at h
    rw [stepEvent_keeps_cfg h, State.takeEvent_cfg]
  | tick =>
    rw [step_of_tick he] at h
    cases h
    rw [State.tick_cfg, State.takeEvent_cfg]
  | reset p => exact absurd he (hreset p)

end Sys2Proof.Machine
end

section
/-! A word that decodes is the word of what it decodes to (30_encoding.md R96, R97): the fields that the decoder reads,
put together again under the fixed bits of the row. -/

namespace Sys2Proof

theorem encNNN_of_class {op : Word} {c : BitVec 4} (hc : opClass op = c) : encNNN c (opNNN op) = op := by
  rw [← hc, encNNN_fields]

theorem encXNN_of_class {op : Word} {c : BitVec 4} (hc : opClass op = c) : encXNN c (opX op) (opNN op) = op := by
  rw [← hc, encXNN_fields]

theorem encXNN_of_low {op : Word} {c : BitVec 4} {nn : Byte} (hc : opClass op = c) (hn : opNN op = nn) :
    encXNN c (opX op) nn = op := by
  rw [← hn, encXNN_of_class hc]

theorem encXYN_of_low {op : Word} {c n : BitVec 4} (hc : opClass op = c) (hn : opN op = n) :
    encXYN c (opX op) (opY op) n = op := by
  rw [← hc, ← hn, encXYN_fields]

/-- The class that the last arm of the decoder is left with. -/
theorem class_eq_F (c : BitVec 4) : c ≠ 0x0#4 → c ≠ 0x1#4 → c ≠ 0x2#4 → c ≠ 0x3#4 → c ≠ 0x4#4 → c ≠ 0x5#4 →
    c ≠ 0x6#4 → c ≠ 0x7#4 → c ≠ 0x8#4 → c ≠ 0x9#4 → c ≠ 0xA#4 → c ≠ 0xB#4 → c ≠ 0xC#4 → c ≠ 0xD#4 → c ≠ 0xE#4 →
    c = 0xF#4 := by
  intros; bv_omega

theorem encode_of_decodeClass0 {op : Word} {i : Instr} (h : decodeClass0 op = .ok i) : encode i = op := by
  unfold decodeClass0 at h
  split_ifs at h with h1 h2
  · cases h; exact h1.symm
  · cases h; exact h2.symm

theorem encode_of_decodeClass8 {op : Word} {i : Instr} (hc : opClass op = 0x8#4) (h : decodeClass8 op = .ok i) :
    encode i = op := by
  unfold decodeClass8 at h
  split at h <;> cases h <;> exact encXYN_of_low hc ‹_›

theorem encode_of_decodeClassE {op : Word} {i : Instr} (hc : opClass op = 0xE#4) (h : decodeClassE op = .ok i) :
    encode i = op := by
  unfold decodeClassE at h
  split at h <;> cases h <;> exact encXNN_of_low hc ‹_›

theorem encode_of_decodeClassF {op : Word} {i : Instr} (hc : opClass op = 0xF#4) (h : decodeClassF op = .ok i) :
    encode i = op := by
  unfold decodeClassF at h
  split at h <;> cases h <;> exact encXNN_of_low hc ‹_›

/-- What decodes to `i` is the word of `i`. -/
theorem encode_of_decode {op : Word} {i : Instr} (h : decode op = .ok i) : encode i = op := by
  unfold decode at h
  split at h
  case h_1 => exact encode_of_decodeClass0 h
  case h_6 | h_10 =>
    split_ifs at h with hn
    cases h
    exact encXYN_of_low ‹_› hn
  case h_9 hc => exact encode_of_decodeClass8 hc h
  case h_14 hc =>
    cases h
    simpa [encode] using encXYN_of_low hc rfl
  case h_15 hc => exact encode_of_decodeClassE hc h
  case h_16 => exact encode_of_decodeClassF (by apply class_eq_F <;> assumption) h
  case h_2 hc | h_3 hc | h_11 hc | h_12 hc => cases h; exact encNNN_of_class hc
  case h_4 hc | h_5 hc | h_7 hc | h_8 hc | h_13 hc => cases h; exact encXNN_of_class hc

/-- The word of an FX0A decodes to it (45_timers_and_keywait.md R233). -/
theorem decode_encode_ldVxK (x : RegIdx) : decode (encode (.ldVxK x)) = .ok (.ldVxK x) := by
  simp [encode, decode, decodeClassF]

end Sys2Proof
end

section
/-! What an instruction can do to the state, said once for all instructions: it takes a fault, or it completes in one of
a few ways. Every fact about all instructions follows by cases on this. -/

namespace Sys2Proof.Machine

/-- The ways an instruction `i` can take `s` to a next state. -/
inductive Effect : Instr → State → State → Prop where
  /-- A fault, recorded with the word of `i` and, exactly for OutOfBoundsAccess, an address above 0xFFF
  (60_exceptions.md R271, R272). -/
  | fault {i s} (cause : FaultCause) (addr : Option Word) (haddr : addr.isSome ↔ cause = .outOfBoundsAccess)
      (hout : ∀ a, addr = some a → 0xFFF < a.toNat) : Effect i s (s.raise cause (some (encode i)) addr)
  /-- `PC` alone: a jump or a skip, to an address within 10_state.md R26. -/
  | goto {i s} (pc : Word) (hpc : s.pc.toNat < 0xFFF → pc.toNat ≤ 0x10FE) : Effect i s (s.setPc pc)
  /-- Registers. -/
  | regs {i s} (v : Vector Byte 16) : Effect i s { s.preAdvance with v := v }
  /-- `I`, and perhaps registers (R27). -/
  | index {i s} (hi : (∃ nnn, i = .ldI nnn) ∨ (∃ x, i = .addI x) ∨ ∃ x, i = .ldF x) (a : Word) (v : Vector Byte 16) :
      Effect i s { s.preAdvance with i := a, v := v }
  /-- Memory from `I` on. -/
  | store {i s} (hi : (∃ x, i = .ldB x) ∨ ∃ x, i = .ldMemVx x) (bs : List Byte) :
      Effect i s { s.preAdvance with mem := s.mem.writeBytes s.i.toNat bs }
  /-- The framebuffer, and perhaps registers (R33). -/
  | screen {i s} (hi : i = .cls ∨ ∃ x y n, i = .drw x y n) (fb : FrameBuffer) (v : Vector Byte 16) :
      Effect i s { s.preAdvance with fb := fb, v := v }
  /-- `DT` (R29). -/
  | delay {s} (x : RegIdx) : Effect (.ldDtVx x) s { s.preAdvance with dt := s.reg x }
  /-- `ST` (R30). -/
  | sound {s} (x : RegIdx) : Effect (.ldStVx x) s { s.preAdvance with st := s.reg x }
  /-- A call with room on the stack (R31). -/
  | call {s} (nnn : BitVec 12) (hroom : s.stack.length ≠ s.cfg.stackDepth) :
      Effect (.call nnn) s { s with stack := s.stack ++ [s.pc + 2], pc := addrOf nnn }
  /-- A return to the last pushed address (R31). -/
  | ret {s} (st : List Word) (r : Word) (hs : s.stack = st ++ [r]) : Effect .ret s { s with stack := st, pc := r }
  /-- A key wait begins or goes on (45_timers_and_keywait.md R233). -/
  | wait {s} (x : RegIdx) : Effect (.ldVxK x) s s.keepWaiting
  /-- A key wait completes (R233). -/
  | complete {s} (x : RegIdx) (v : Vector Byte 16) :
      Effect (.ldVxK x) s { s.preAdvance with v := v, kwActive := false, kwPrev := 0 }

/-! ### Where `PC` can go -/

theorem toNat_addrOf_le (nnn : BitVec 12) : (addrOf nnn).toNat ≤ 0xFFF := by
  rw [addrOf]
  bv_omega

/-- The largest target of any jump, 0xFFF + 0xFF (10_state.md R26). -/
theorem toNat_offsetTarget_le (nnn : BitVec 12) (b : Byte) : (offsetTarget nnn b).toNat ≤ 0x10FE := by
  have h : (offsetTarget nnn b).toNat ≤ nnn.toNat + b.toNat := by
    rw [offsetTarget, BitVec.toNat_ofNat]; exact Nat.mod_le _ _
  have := nnn.isLt
  have := b.isLt
  omega

/-- The pre-advance from an address that can be fetched (40_execute_cycle.md R122, R123). -/
theorem toNat_add_two_le {pc : Word} (h : pc.toNat < 0xFFF) : (pc + 2).toNat ≤ 0x1000 := by
  bv_omega

theorem Effect.skipIf (i : Instr) (s : State) (c : Bool) : Effect i s (s.preAdvance.skipIf c) := by
  cases c with
  | false => exact .goto (s.pc + 2) fun h => by bv_omega
  | true => exact .goto (s.pc + 2 + 2) fun h => by bv_omega

/-! ### Every instruction has one of these effects -/

/-- The address that a range check or a fetch records is above 0xFFF (20_memory.md R64). -/
theorem recorded_address_outside (base : Word) : 0xFFF < (if 0xFFF < base.toNat then base else 0x1000).toNat := by
  split
  · assumption
  · decide

/-- A checked transfer faults or does what the transfer does. -/
theorem Effect.ifInRange {i : Instr} {s t : State} (n : Nat) (ht : Effect i s t) : Effect i s (s.ifInRange i n t) := by
  obtain ⟨-, h⟩ | ⟨-, h⟩ := ifInRange_cases s i n t
  · rwa [h]
  · rw [h]
    exact .fault _ _ (by simp) fun a ha => by cases ha; exact recorded_address_outside s.i

/-- An FX0A waits or completes, and never faults (45_timers_and_keywait.md R233, R236). -/
theorem exec_ldVxK_cases {x : RegIdx} {s t : State} (h : exec (.ldVxK x) s = .next t) :
    t = s.keepWaiting ∨ ∃ v, t = { s.preAdvance with v := v, kwActive := false, kwPrev := 0 } := by
  cases h
  split
  · split
    · exact .inr ⟨_, rfl⟩
    · exact .inl rfl
  · exact .inl rfl

theorem effect_of_exec {i : Instr} {s t : State} (h : exec i s = .next t) : Effect i s t := by
  cases i with
  | cls => cases h; exact .screen (.inl rfl) _ _
  | ret =>
    obtain hs | ⟨st, r, hs⟩ := s.stack.eq_nil_or_concat'
    · rw [exec_ret_of_nil hs] at h; cases h; exact .fault _ _ (by simp) (by simp)
    · rw [exec_ret_of_append hs] at h; cases h; exact .ret st r hs
  | call nnn =>
    by_cases hs : s.stack.length = s.cfg.stackDepth
    · rw [exec_call_of_full nnn hs] at h; cases h; exact .fault _ _ (by simp) (by simp)
    · rw [exec_call_of_room nnn hs] at h; cases h; exact .call nnn hs
  | jp nnn => cases h; exact .goto (addrOf nnn) fun _ => (toNat_addrOf_le nnn).trans (by decide)
  | jpV0 nnn => cases h; exact .goto (offsetTarget nnn (s.reg 0)) fun _ => toNat_offsetTarget_le _ _
  | seImm | sneImm | seReg | sneReg | skp | sknp => cases h; exact .skipIf _ _ _
  | ldI nnn => cases h; exact .index (.inl ⟨nnn, rfl⟩) _ _
  | ldF x => cases h; exact .index (.inr (.inr ⟨x, rfl⟩)) _ _
  | addI x =>
    cases h
    have hi : ∃ y, Instr.addI x = .addI y := ⟨x, rfl⟩
    split
    · exact .index (.inr (.inl hi)) _ _
    · exact .index (.inr (.inl hi)) _ _
  | drw x y n =>
    cases h
    have hdraw := Effect.screen (s := s) (.inr ⟨x, y, n, rfl⟩) (s.drawSprite x y n).1
      (s.v.set vf (collisionFlag (s.drawSprite x y n).2))
    split
    · exact hdraw
    · exact hdraw.ifInRange n
  | ldB x => cases h; exact .ifInRange _ (.store (.inl ⟨x, rfl⟩) _)
  | ldMemVx x => cases h; exact .ifInRange _ (.store (.inr ⟨x, rfl⟩) _)
  | ldVxMem x => cases h; exact .ifInRange _ (.regs _)
  | ldDtVx x => cases h; exact .delay x
  | ldStVx x => cases h; exact .sound x
  | ldVxK x =>
    obtain rfl | ⟨v, rfl⟩ := exec_ldVxK_cases h
    · exact .wait x
    · exact .complete x v
  | _ => cases h; exact .regs _

/-- Settles O47: of the effects only those of RET and CALL write the stack. -/
theorem onlyCallAndReturnTouchStack : Obligations.OnlyCallAndReturnTouchStack := by
  intro i s t h hne
  cases effect_of_exec h with
  | ret => exact .inl rfl
  | call nnn => exact .inr ⟨nnn, rfl⟩
  | _ => exact absurd rfl hne

/-- Settles O49: each component is written by one kind of effect, which names its instructions. -/
theorem writersOfSpecialRegisters : Obligations.WritersOfSpecialRegisters := by
  intro i s t h
  have he := effect_of_exec h
  refine ⟨fun hne => ?_, fun hne => ?_, fun hne => ?_, fun hne => ?_, fun hne => ?_⟩
  · cases he with
    | index hi => exact hi
    | _ => exact absurd rfl hne
  · cases he with
    | delay x => exact ⟨x, rfl⟩
    | _ => exact absurd rfl hne
  · cases he with
    | sound x => exact ⟨x, rfl⟩
    | _ => exact absurd rfl hne
  · cases he with
    | wait x | complete x => exact ⟨x, rfl⟩
    | _ => exact (hne.elim (absurd rfl) (absurd rfl))
  · cases he with
    | screen hi => exact hi
    | _ => exact absurd rfl hne

end Sys2Proof.Machine
end

section
/-! `Reset(P)` (70_reset_and_hazards.md R300, R301; 10_state.md R42). -/

namespace Sys2Proof.Machine

/-- Construction succeeds exactly on a configuration within its bounds, and answers the built state. -/
theorem construct_eq_next {p : Config} {e : Env} {t : State} : construct p e = .next t ↔ p.wf ∧ built p e = t := by
  unfold construct
  split_ifs with hrom hdepth
  · exact ⟨(fun e => nomatch e), fun ⟨⟨_, hle⟩, _⟩ => absurd hle hrom.not_ge⟩
  · exact ⟨(fun e => nomatch e), fun ⟨⟨hpos, _⟩, _⟩ => by omega⟩
  · have hwf : p.wf := ⟨Nat.pos_of_ne_zero hdepth, not_lt.mp hrom⟩
    exact ⟨fun e => ⟨hwf, Host.Outcome.next.inj e⟩, fun ⟨_, e⟩ => congrArg _ e⟩

/-- Memory after reset with the default font and no program lists no cell: it reads as an unlisted one everywhere. -/
theorem initialMemory_default : initialMemory defaultConfig = [] := by
  refine Memory.eq_of_read_eq (initialMemory_wf _) wf_nil fun a => ?_
  rw [read_initialMemory _ (by decide), if_neg (by simp [defaultConfig]), Memory.read_nil]
  split
  · exact getD_defaultFont a
  · exact (Memory.unlisted_of_le (by omega)).symm

theorem built_default : built defaultConfig State.reset.env = State.reset := by
  rw [built, initialMemory_default]; rfl

/-- Settles O13: the default configuration is within its bounds, and what is built from it is the reset state. -/
theorem resetStateIsDefaultConstruction : Obligations.ResetStateIsDefaultConstruction :=
  construct_eq_next.mpr ⟨by decide, built_default⟩

/-- Settles O11: construction answers the built state, whose memory is read byte by byte. -/
theorem resetGivesEveryComponent : Obligations.ResetGivesEveryComponent := by
  intro s p he hwf
  have hread := read_initialMemory p hwf.2
  refine ⟨built p s.takeEvent.env, (step_of_reset he).trans (construct_eq_next.mpr ⟨hwf, rfl⟩), rfl, rfl, ?_, rfl, rfl,
    rfl, rfl, fun a ha => ?_, fun a ha hb => ?_, fun j hj => ?_, fun a ha => ?_, ?_, rfl, rfl, rfl, rfl⟩
  · intro j; simp [State.reg, built]
  · exact (hread a).trans (by rw [if_neg (by omega), if_pos ha])
  · exact (hread a).trans (by rw [if_neg (by omega), if_neg (by omega)])
  · exact (hread _).trans (by rw [if_pos (by omega), Nat.add_sub_cancel_left])
  · exact (hread a).trans (by rw [if_neg (by omega), if_neg (by omega)])
  · intro x y; simp [State.pixel, built]

end Sys2Proof.Machine
end

section
/-! The invariant of the core: it holds after `Reset(P)`, and every event keeps it. -/

namespace Sys2Proof.Machine

/-- Whether a record agrees with a state depends on `PC` and memory alone. -/
theorem FaultRecord.Agrees.congr {r : FaultRecord} {s t : State} (h : r.Agrees s) (hpc : t.pc = s.pc)
    (hmem : t.mem = s.mem) : r.Agrees t where
  pc := h.pc.trans hpc.symm
  opcode := (fetch_congr hpc hmem).trans h.opcode
  fetchCause := h.fetchCause
  addr := h.addr
  outside := h.outside

/-- The invariant does not look at the timers or the environment. -/
theorem State.Inv.withTimersEnv {s : State} (h : s.Inv) (dt st : Byte) (env : Env) :
    ({ s with dt := dt, st := st, env := env } : State).Inv :=
  { h with record := fun r hr => (h.record r hr).congr rfl rfl }

theorem State.Inv.takeEvent {s : State} (h : s.Inv) : s.takeEvent.Inv := h.withTimersEnv s.dt s.st s.env.advance

theorem State.Inv.sample {s : State} (h : s.Inv) (k : Keys) (r : Byte) : (s.sample k r).Inv :=
  h.withTimersEnv s.dt s.st { s.env with keys := k, random := r }

theorem State.Inv.tick {s : State} (h : s.Inv) : s.tick.Inv := by
  cases hh : s.halted with
  | true => rwa [tick_of_halted hh]
  | false => rw [tick_of_running hh]; exact h.withTimersEnv _ _ s.env

/-- What `Reset(P)` builds meets the invariant. -/
theorem inv_built {p : Config} (hwf : p.wf) (e : Env) : (built p e).Inv where
  cfg := hwf
  mem := initialMemory_wf p
  depth := Nat.zero_le _
  entries := fun _ hr => nomatch hr
  pc := show entryPoint.toNat ≤ 0x10FE by decide
  latch := rfl
  record := fun _ hr => nomatch hr
  idle := fun _ => rfl
  waiting := fun hk => nomatch hk

/-- Settles O53: the reset state is built from the default configuration. -/
theorem invHoldsAtReset : Obligations.InvHoldsAtReset := by
  unfold Obligations.InvHoldsAtReset
  rw [← built_default]
  exact inv_built (by decide) State.reset.env

theorem State.Inv.fault_eq_none {s : State} (h : s.Inv) (hrun : s.halted = false) : s.fault = none := by
  simpa [hrun] using h.latch

/-- A wait in progress stands on the word of an FX0A, which decodes to it (45_timers_and_keywait.md R237). -/
theorem State.Inv.decode_of_waiting {s : State} (h : s.Inv) (hk : s.kwActive = true) :
    ∃ op x, fetch s = .ok op ∧ decode op = .ok (.ldVxK x) := by
  obtain ⟨⟨x, hf⟩, -⟩ := h.waiting hk
  exact ⟨_, x, hf, decode_encode_ldVxK x⟩

/-- A fault outside a wait keeps the invariant if its record is right. -/
theorem State.Inv.raise {s : State} (h : s.Inv) (hk : s.kwActive = false) {cause : FaultCause}
    {opcode addr : Option Word} (hr : FaultRecord.Agrees ⟨cause, s.pc, opcode, addr⟩ s) :
    (s.raise cause opcode addr).Inv :=
  { h with
    latch := rfl
    record := fun _ e => by cases e; exact hr.congr rfl rfl
    waiting := fun e => absurd (hk.symm.trans e) (by decide) }

/-- A running core whose next state has no wait in progress: what is left to see to is memory, the stack and `PC`. -/
theorem State.Inv.of_completed {s t : State} (h : s.Inv) (hrun : s.halted = false) (hcfg : t.cfg = s.cfg)
    (hhalted : t.halted = s.halted) (hfault : t.fault = s.fault) (hactive : t.kwActive = false) (hprev : t.kwPrev = 0)
    (hmem : t.mem.wf) (hdepth : t.stack.length ≤ s.cfg.stackDepth) (hentries : ∀ r ∈ t.stack, r.toNat ≤ 0x1000)
    (hpc : t.pc.toNat ≤ 0x10FE) : t.Inv where
  cfg := hcfg ▸ h.cfg
  mem := hmem
  depth := hcfg ▸ hdepth
  entries := hentries
  pc := hpc
  latch := by rw [hhalted, hfault, h.latch]
  record := fun r hr => by rw [hfault, h.fault_eq_none hrun] at hr; cases hr
  idle := fun _ => hprev
  waiting := fun e => by rw [hactive] at e; cases e

/-- A stall on an FX0A keeps the invariant (R236). -/
theorem State.Inv.keepWaiting {s : State} (h : s.Inv) (hrun : s.halted = false) {x : RegIdx}
    (hf : fetch s = .ok (encode (.ldVxK x))) : s.keepWaiting.Inv where
  cfg := h.cfg
  mem := h.mem
  depth := h.depth
  entries := h.entries
  pc := by rw [pc_keepWaiting]; exact h.pc
  latch := h.latch
  record := fun r hr => (h.record r hr).congr (pc_keepWaiting s) rfl
  idle := fun e => nomatch e
  waiting := fun _ => ⟨⟨x, by rw [fetch_congr (pc_keepWaiting s) rfl, hf]⟩, hrun⟩

/-- An FX0A run where it was fetched keeps the invariant, whether a wait is in progress or not. -/
theorem State.Inv.of_exec_ldVxK {s t : State} {x : RegIdx} (h : s.Inv) (hrun : s.halted = false)
    (hf : fetch s = .ok (encode (.ldVxK x))) (ht : exec (.ldVxK x) s = .next t) : t.Inv := by
  obtain rfl | ⟨v, rfl⟩ := exec_ldVxK_cases ht
  · exact h.keepWaiting hrun hf
  · have hpc := toNat_add_two_le (fetch_eq_ok.mp hf).1
    exact h.of_completed hrun rfl rfl rfl rfl rfl h.mem h.depth h.entries (hpc.trans (by decide))

/-- Any instruction run where it was fetched keeps the invariant outside a wait. -/
theorem State.Inv.of_exec_idle {s t : State} {i : Instr} (h : s.Inv) (hrun : s.halted = false)
    (hk : s.kwActive = false) (hf : fetch s = .ok (encode i)) (ht : exec i s = .next t) : t.Inv := by
  have hin := (fetch_eq_ok.mp hf).1
  have hreturn := toNat_add_two_le hin
  have hnext : (s.pc + 2).toNat ≤ 0x10FE := hreturn.trans (by decide)
  cases effect_of_exec ht with
  | fault cause addr haddr hout =>
    exact h.raise hk ⟨rfl, hf, (fun e => nomatch e), haddr, hout⟩
  | goto pc hgoto => exact h.of_completed hrun rfl rfl rfl hk (h.idle hk) h.mem h.depth h.entries (hgoto hin)
  | regs | index | screen | delay | sound =>
    exact h.of_completed hrun rfl rfl rfl hk (h.idle hk) h.mem h.depth h.entries hnext
  | store =>
    exact h.of_completed hrun rfl rfl rfl hk (h.idle hk) (Memory.wf_writeBytes h.mem _ _) h.depth h.entries
      hnext
  | call nnn hroom =>
    refine h.of_completed hrun rfl rfl rfl hk (h.idle hk) h.mem ?_ ?_ ((toNat_addrOf_le nnn).trans (by decide))
    · have := h.depth
      rw [List.length_append, List.length_singleton]
      omega
    · intro r hr
      obtain hr | hr := List.mem_append.mp hr
      · exact h.entries r hr
      · rwa [List.mem_singleton.mp hr]
  | ret st r hs =>
    have hdepth : st.length + 1 ≤ s.cfg.stackDepth := by simpa [hs] using h.depth
    have hentries : ∀ q ∈ st ++ [r], q.toNat ≤ 0x1000 := hs ▸ h.entries
    exact h.of_completed hrun rfl rfl rfl hk (h.idle hk) h.mem (Nat.le_of_succ_le hdepth)
      (fun q hq => hentries q (List.mem_append_left _ hq)) ((hentries r (by simp)).trans (by decide))
  | wait x | complete x => exact h.of_exec_ldVxK hrun hf ht

/-- The record of a fetch fault (40_execute_cycle.md R122). -/
theorem agrees_of_fetch_error {s : State} {a : Word} (hf : fetch s = .error a) :
    FaultRecord.Agrees ⟨.outOfBoundsAccess, s.pc, none, some a⟩ s where
  pc := rfl
  opcode := hf
  fetchCause := fun _ => rfl
  addr := by simp
  outside := by
    intro b hb
    cases hb
    rw [(fetch_eq_error.mp hf).2]
    exact recorded_address_outside s.pc

/-- The record of an illegal word (R124). -/
theorem agrees_of_unsupported {s : State} {op : Word} (hf : fetch s = .ok op) :
    FaultRecord.Agrees ⟨.unsupportedOpcode, s.pc, some op, none⟩ s where
  pc := rfl
  opcode := hf
  fetchCause := fun e => nomatch e
  addr := by simp
  outside := fun _ e => nomatch e

/-- A Step event keeps the invariant: in a wait it runs the FX0A, and outside it may do whatever a Step can do. -/
theorem State.Inv.stepEvent {s t : State} {k : Keys} {r : Byte} (h : s.Inv) (ht : s.stepEvent k r = .next t) :
    t.Inv := by
  have hs := h.sample k r
  cases hk : s.kwActive with
  | true =>
    obtain ⟨⟨x, hf⟩, hrun⟩ := h.waiting hk
    rw [stepEvent_of_ok k r hrun hf (decode_encode_ldVxK x)] at ht
    exact hs.of_exec_ldVxK hrun hf ht
  | false =>
    obtain ⟨-, e⟩ | ⟨-, a, hf, e⟩ | ⟨-, op, d, hf, -, e⟩ | ⟨hrun, op, i, hf, hd, e⟩ := stepEvent_cases s k r
    all_goals rw [e] at ht
    · cases ht; exact h
    · cases ht; exact hs.raise hk (agrees_of_fetch_error hf)
    · cases ht; exact hs.raise hk (agrees_of_unsupported hf)
    · exact hs.of_exec_idle hrun hk (encode_of_decode hd ▸ hf) ht

/-- Settles O54: by the next event. A Step is by the case of a wait and what a Step can do, a Tick writes timers alone,
and a Reset builds a core anew. -/
theorem everyStepKeepsInv : Obligations.EveryStepKeepsInv := by
  intro s t h ht
  cases he : s.nextEvent with
  | step k r =>
    rw [step_of_step he] at ht
    exact h.takeEvent.stepEvent ht
  | tick =>
    rw [step_of_tick he] at ht
    cases ht
    exact h.takeEvent.tick
  | reset p =>
    rw [step_of_reset he] at ht
    obtain ⟨hwf, rfl⟩ := construct_eq_next.mp ht
    exact inv_built hwf _

end Sys2Proof.Machine
end

section
/-! The ports: the tone (10_state.md R39) and the fault ports (R38). -/

namespace Sys2Proof.Machine

open Sys2Proof.Claims

theorem toneEn_eq_true {s : State} : s.toneEn = true ↔ s.st ≠ 0 ∧ s.halted = false := by
  simp [State.toneEn]

/-- A running core after `n` ticks: it still runs, and the sound timer has gone down by `n`, to 0 at least
(60_exceptions.md R276). -/
theorem ticks_of_running {s : State} (hrun : s.halted = false) (n : Nat) :
    (ticks n s).halted = false ∧ (ticks n s).st.toNat = s.st.toNat - n := by
  induction n generalizing s with
  | zero => exact ⟨hrun, rfl⟩
  | succ n ih =>
    obtain ⟨hhalted, hst⟩ := ih (s := s.tick) ((State.tick_halted s).trans hrun)
    have htick : s.tick.st.toNat = s.st.toNat - 1 := by rw [tick_of_running hrun]; exact toNat_countDown s.st
    refine ⟨hhalted, ?_⟩
    show (ticks n s.tick).st.toNat = s.st.toNat - (n + 1)
    omega

/-- Settles O38: a timer that has gone down by `n` is not 0 exactly if it was set above `n`. -/
theorem toneLastsSoundTimerTicks : Obligations.ToneLastsSoundTimerTicks := by
  intro s x n
  refine ⟨toneEn_eq_true, fun hrun => ⟨_, rfl, ?_⟩⟩
  obtain ⟨hhalted, hst⟩ := ticks_of_running (s := { s.preAdvance with st := s.reg x }) hrun n
  rw [toneEn_eq_true, and_iff_left hhalted, ne_eq, ← BitVec.toNat_inj, hst]
  exact Nat.sub_ne_zero_iff_lt

theorem toNat_code (c : FaultCause) : c.code.toNat = causeCode c := by
  cases c <;> rfl

/-- Settles O52: each port is a function of the latch, which holds a record or none. -/
theorem faultPortsShowRecord : Obligations.FaultPortsShowRecord := by
  intro s
  refine ⟨rfl, fun hh => by simp [State.toneEn, hh], fun r hr => ?_, fun hr => ?_⟩
  · unfold State.faultCausePort State.faultPcPort State.faultOpcodeValid State.faultOpcodePort State.faultAddrValid
      State.faultAddrPort
    rw [hr]
    refine ⟨toNat_code r.cause, rfl, fun op e => ?_, fun e => ?_, fun a e => ?_, fun e => ?_⟩
    all_goals simp [e]
  · simp [State.faultCausePort, State.faultPcPort, State.faultOpcodeValid, State.faultOpcodePort,
      State.faultAddrValid, State.faultAddrPort, hr]

/-- Settles O56: the latch holds the record of the fault, and the ports show the latch. -/
theorem instructionFaultShowsOnPorts : Obligations.InstructionFaultShowsOnPorts := by
  intro i s t cause addr hfault ht
  rw [hfault] at ht
  cases ht
  obtain ⟨hhalted, htone, hrecord, -⟩ := faultPortsShowRecord (s.raise cause (some (encode i)) addr)
  obtain ⟨hcause, hpc, hopcode, -, haddr, hnoaddr⟩ := hrecord _ rfl
  obtain ⟨hvalid, hword⟩ := hopcode _ rfl
  refine ⟨hhalted, hcause, hpc, hvalid, hword, ?_, ?_, htone rfl⟩
  · cases addr with
    | none => exact (hnoaddr rfl).1
    | some a => exact (haddr a rfl).1
  · cases addr with
    | none => exact (hnoaddr rfl).2
    | some a => exact (haddr a rfl).2

end Sys2Proof.Machine
end

section
/-! Decoding inverts encoding, row by row of 30_encoding.md R97; so a Step runs the instruction whose word stands at `PC`
(20_memory.md R61, 40_execute_cycle.md R120). -/

namespace Sys2Proof

/-- A row count within its field is kept by the four bits of the word (30_encoding.md R93). -/
theorem toNat_rowCount {n : Nat} (h : n ≤ 15) : (BitVec.ofNat 4 n).toNat = n := by
  rw [BitVec.toNat_ofNat]
  exact Nat.mod_eq_of_lt (by omega)

/-- The word of a well-formed instruction decodes to it: the fixed bits of its format select its row, and the fields read
back as they were put in (R96). -/
theorem decode_encode {i : Instr} (h : i.WellFormed) : decode (encode i) = .ok i := by
  cases i with
  | cls | ret => rfl
  | jp | call | ldI | jpV0 => simp [encode, decode]
  | seImm | sneImm | ldImm | addImm | rnd => simp [encode, decode]
  | seReg | sneReg => simp [encode, decode]
  | drw x y n => simp [encode, decode, toNat_rowCount h]
  | ldReg | or | and | xor | addReg | sub | shr | subn | shl => simp [encode, decode, decodeClass8]
  | skp | sknp => simp [encode, decode, decodeClassE]
  | ldVxDt | ldVxK | ldDtVx | ldStVx | addI | ldF | ldB | ldMemVx | ldVxMem => simp [encode, decode, decodeClassF]

end Sys2Proof

namespace Sys2Proof.Machine

/-- The two bytes of a word at `PC`, the high one first, are fetched as that word. -/
theorem fetch_of_bytes {s : State} {op : Word} (hpc : s.pc.toNat < 0xFFF) (hhi : s.mem.read s.pc.toNat = highByte op)
    (hlo : s.mem.read (s.pc.toNat + 1) = lowByte op) : fetch s = .ok op :=
  fetch_eq_ok.mpr ⟨hpc, by rw [hhi, hlo, bigEndian_bytes]⟩

/-- Settles O6: the fetch gives the word of `i`, and the word decodes to `i`. -/
theorem stepRunsEncodedInstruction : Obligations.StepRunsEncodedInstruction := by
  intro s k r i hwf hrun hevent hpc hhi hlo
  have hfetch : fetch s.takeEvent = .ok (encode i) := fetch_of_bytes hpc hhi hlo
  rw [step_of_step hevent]
  exact stepEvent_of_ok k r hrun hfetch (decode_encode hwf)

end Sys2Proof.Machine
end

section
/-! The transfers to and from memory (20_memory.md R64): out of range they fault, in range the stored bytes are what is
read there, and nothing else in memory changes. -/

namespace Sys2Proof.Machine

open Sys2Proof.Claims

/-! ### Out of range -/

/-- An instruction that runs under the range check faults when its range leaves memory (R64). -/
theorem takesFault_of_gt {i : Instr} {s t : State} {n : Nat} (hexec : exec i s = .next (s.ifInRange i n t))
    (h : 0xFFF < s.i.toNat + n - 1) : TakesFault i s .outOfBoundsAccess (some (firstOutside s.i)) := by
  rw [ifInRange_of_gt h] at hexec
  exact hexec

/-- A sprite of at least one row is drawn under the range check (46_display.md R251, D21). -/
theorem exec_drw_of_pos (s : State) (x y : RegIdx) {n : Nat} (h : 0 < n) :
    exec (.drw x y n) s = .next (s.ifInRange (.drw x y n) n
      ({ s.preAdvance with fb := (s.drawSprite x y n).1 }.setReg vf (collisionFlag (s.drawSprite x y n).2))) :=
  congrArg _ (if_neg h.ne')

/-- Settles O34: each transfer runs under the range check, and the last address of its range is above 0xFFF. -/
theorem transfersFaultOutsideMemory : Obligations.TransfersFaultOutsideMemory := by
  intro s x y n
  refine ⟨fun h => takesFault_of_gt rfl h, fun h => ⟨takesFault_of_gt rfl h, takesFault_of_gt rfl h⟩, fun hn h => ?_⟩
  exact takesFault_of_gt (exec_drw_of_pos s x y hn) h

/-! ### In range -/

/-- A block store that fits in memory completes (44_index_and_memory.md R214). -/
theorem exec_ldMemVx_of_le {s : State} {x : RegIdx} (h : s.i.toNat + x.val ≤ 0xFFF) :
    exec (.ldMemVx x) s = .next { s.preAdvance with mem := s.mem.writeBytes s.i.toNat (s.regBlock x) } :=
  congrArg _ (ifInRange_of_le h)

/-- After a block store, `V[j]` stands at `I + j` (R214). -/
theorem read_regBlock {s : State} {x j : RegIdx} (hwf : s.mem.wf) (hfit : s.i.toNat + x.val ≤ 0xFFF) (hj : j ≤ x) :
    (s.mem.writeBytes s.i.toNat (s.regBlock x)).read (s.i.toNat + j.val) = s.reg j := by
  have hlen := s.length_regBlock x
  have hle : j.val ≤ x.val := hj
  have hend : s.i.toNat + (s.regBlock x).length ≤ 4096 := by omega
  rw [Memory.read_writeBytes hwf _ _ hend, if_pos (by omega), Nat.add_sub_cancel_left, s.getD_regBlock x j hj]

/-- Settles O35: the next fetch is at `I`, where the block begins with `V0` and `V1`. -/
theorem storeIsSeenByNextFetch : Obligations.StoreIsSeenByNextFetch := by
  intro s x hwf hx hi hfit
  refine ⟨_, exec_ldMemVx_of_le hfit, fetch_eq_ok.mpr ?_⟩
  have hpc : (s.pc + 2).toNat = s.i.toNat := by bv_omega
  have hhi := read_regBlock (j := 0) hwf hfit (Fin.zero_le x)
  have hlo := read_regBlock (j := 1) hwf hfit hx
  show (s.pc + 2).toNat < 0xFFF ∧ _ = bigEndian (Memory.read _ (s.pc + 2).toNat) (Memory.read _ ((s.pc + 2).toNat + 1))
  rw [hpc]
  exact ⟨by omega, congrArg₂ bigEndian hhi.symm hlo.symm⟩

/-! ### What changes memory -/

/-- Of the effects only the stores write memory. -/
theorem mem_eq_or_store {i : Instr} {s t : State} (h : exec i s = .next t) :
    t.mem = s.mem ∨ (∃ x, i = .ldB x) ∨ ∃ x, i = .ldMemVx x := by
  cases effect_of_exec h with
  | store hi => exact .inr hi
  | _ => exact .inl rfl

/-- A checked store changes only bytes of its range, which is in memory; a fault changes none (R64). -/
theorem in_range_of_store_ne {i : Instr} {s : State} {bs : List Byte} {n a : Nat} (hlen : bs.length = n) (hwf : s.mem.wf)
    (h : (s.ifInRange i n { s.preAdvance with mem := s.mem.writeBytes s.i.toNat bs }).mem.read a ≠ s.mem.read a) :
    a ≤ 0xFFF ∧ s.i.toNat ≤ a ∧ a < s.i.toNat + n := by
  subst hlen
  obtain ⟨hfit, e⟩ | ⟨-, e⟩ := ifInRange_cases s i bs.length
    { s.preAdvance with mem := s.mem.writeBytes s.i.toNat bs }
  · rw [e] at h
    have hend : s.i.toNat + bs.length ≤ 4096 := by omega
    have hin : s.i.toNat ≤ a ∧ a < s.i.toNat + bs.length := by
      by_contra hout
      exact h ((Memory.read_writeBytes hwf _ _ hend a).trans (if_neg hout))
    exact ⟨by omega, hin⟩
  · rw [e] at h
    exact absurd rfl h

/-- Settles O48: the two stores change only bytes of their range, and no other instruction writes memory. -/
theorem onlyBcdAndStoreBlockChangeMemory : Obligations.OnlyBcdAndStoreBlockChangeMemory := by
  intro i s t a hwf h hne
  obtain hmem | ⟨x, rfl⟩ | ⟨x, rfl⟩ := mem_eq_or_store h
  · exact absurd (by rw [hmem]) hne
  · cases h
    obtain ⟨hin, hfrom, hto⟩ := in_range_of_store_ne (length_bcdDigits (s.reg x)) hwf hne
    exact ⟨hin, hfrom, .inl ⟨x, rfl, hto⟩⟩
  · cases h
    obtain ⟨hin, hfrom, hto⟩ := in_range_of_store_ne (s.length_regBlock x) hwf hne
    exact ⟨hin, hfrom, .inr ⟨x, rfl, Nat.le_of_lt_succ hto⟩⟩

end Sys2Proof.Machine
end

section
/-! The decoder and the encoder are inverse to each other on the legal words, and the illegal words of 30_encoding.md R98
are those the decoder rejects (R96). -/

namespace Sys2Proof

open Sys2Proof.Claims

/-! ### Both directions of the round trip -/

/-- Settles O1, by the rows of R97. -/
theorem decodeInvertsEncode : Obligations.DecodeInvertsEncode := fun _ => decode_encode

/-- The word of a DXYN holds the low four bits of the row count, so these are what it decodes to (R92, R93). -/
theorem decode_encode_drw (x y : RegIdx) (n : Nat) : decode (encode (.drw x y n)) = .ok (.drw x y (n % 16)) := by
  simp [encode, decode]

/-- Only a row count can be out of its field, and the word that decodes to it would hold it cut to four bits. -/
theorem wellFormed_of_decode {op : Word} {i : Instr} (h : decode op = .ok i) : i.WellFormed := by
  cases i with
  | drw x y n =>
    rw [← encode_of_decode h, decode_encode_drw] at h
    have hn : n % 16 = n := by simpa using h
    show n ≤ 15
    omega
  | _ => trivial

/-- Settles O2: the fields that were read give the word back, and each is within its width. -/
theorem encodeInvertsDecode : Obligations.EncodeInvertsDecode :=
  fun _ _ h => ⟨wellFormed_of_decode h, encode_of_decode h⟩

/-! ### The rejected words -/

/-- The illegal words by the fields that the decoder dispatches on (R91, R98). -/
theorem illegalWord_iff_fields (op : Word) : IllegalWord op ↔
    (opClass op = 0x0#4 ∧ op ≠ 0x00E0#16 ∧ op ≠ 0x00EE#16) ∨
    (opClass op = 0x5#4 ∧ opN op ≠ 0x0#4) ∨
    (opClass op = 0x8#4 ∧ opN op ∈ [0x8#4, 0x9#4, 0xA#4, 0xB#4, 0xC#4, 0xD#4, 0xF#4]) ∨
    (opClass op = 0x9#4 ∧ opN op ≠ 0x0#4) ∨
    (opClass op = 0xE#4 ∧ opNN op ∉ [0x9E#8, 0xA1#8]) ∨
    (opClass op = 0xF#4 ∧ opNN op ∉ [0x07#8, 0x0A#8, 0x15#8, 0x18#8, 0x1E#8, 0x29#8, 0x33#8, 0x55#8, 0x65#8]) := by
  simp [IllegalWord, ← toNat_opClass, ← toNat_opN, ← toNat_opNN, ← BitVec.toNat_inj]

/-- The answer `r` of a decoder on `op` is a rejection with the word if `c` holds, else an instruction. -/
def RejectsWhen (op : Word) (c : Prop) (r : Except DecodeReject Instr) : Prop :=
  (c → r = .error (.unsupported op)) ∧ (¬ c → ∃ i, r = .ok i)

theorem RejectsWhen.of_ok {op : Word} {c : Prop} (i : Instr) (hc : ¬ c) : RejectsWhen op c (.ok i) :=
  ⟨fun h => absurd h hc, fun _ => ⟨i, rfl⟩⟩

theorem RejectsWhen.of_error {op : Word} {c : Prop} (hc : c) : RejectsWhen op c (.error (.unsupported op)) :=
  ⟨fun _ => rfl, fun h => absurd hc h⟩

theorem decodeClass0_rejectsWhen (op : Word) :
    RejectsWhen op (op ≠ 0x00E0#16 ∧ op ≠ 0x00EE#16) (decodeClass0 op) := by
  unfold decodeClass0
  split_ifs with hcls hret
  · exact .of_ok _ fun h => h.1 hcls
  · exact .of_ok _ fun h => h.2 hret
  · exact .of_error ⟨hcls, hret⟩

/-- The nibbles that the last arm of class 8 is left with. -/
theorem mem_unused_of_class8 (n : BitVec 4) : n ≠ 0x0#4 → n ≠ 0x1#4 → n ≠ 0x2#4 → n ≠ 0x3#4 → n ≠ 0x4#4 → n ≠ 0x5#4 →
    n ≠ 0x6#4 → n ≠ 0x7#4 → n ≠ 0xE#4 → n ∈ [0x8#4, 0x9#4, 0xA#4, 0xB#4, 0xC#4, 0xD#4, 0xF#4] := by
  revert n; decide

theorem decodeClass8_rejectsWhen (op : Word) :
    RejectsWhen op (opN op ∈ [0x8#4, 0x9#4, 0xA#4, 0xB#4, 0xC#4, 0xD#4, 0xF#4]) (decodeClass8 op) := by
  unfold decodeClass8
  split
  case h_10 => exact .of_error (by apply mem_unused_of_class8 <;> assumption)
  all_goals exact .of_ok _ (by simp [*])

theorem decodeClassE_rejectsWhen (op : Word) : RejectsWhen op (opNN op ∉ [0x9E#8, 0xA1#8]) (decodeClassE op) := by
  unfold decodeClassE
  split
  case h_3 =>
    simp only [List.mem_cons, List.not_mem_nil, or_false, not_or]
    exact .of_error (by and_intros <;> assumption)
  all_goals exact .of_ok _ (by simp [*])

theorem decodeClassF_rejectsWhen (op : Word) :
    RejectsWhen op (opNN op ∉ [0x07#8, 0x0A#8, 0x15#8, 0x18#8, 0x1E#8, 0x29#8, 0x33#8, 0x55#8, 0x65#8])
      (decodeClassF op) := by
  unfold decodeClassF
  split
  case h_10 =>
    simp only [List.mem_cons, List.not_mem_nil, or_false, not_or]
    exact .of_error (by and_intros <;> assumption)
  all_goals exact .of_ok _ (by simp [*])

/-- A class with the one row `XY0` takes a word if its `N` is 0 (R96, D14). -/
theorem rejectsWhen_ite (op : Word) (i : Instr) :
    RejectsWhen op (opN op ≠ 0x0#4) (if opN op = 0x0#4 then .ok i else .error (.unsupported op)) := by
  split_ifs with h
  · exact .of_ok i (not_not.mpr h)
  · exact .of_error h

/-- By the classes: each has its own set of R98, or takes every word. -/
theorem decode_rejectsWhen (op : Word) : RejectsWhen op (IllegalWord op) (decode op) := by
  rw [illegalWord_iff_fields]
  unfold decode
  split
  case h_1 hc => simpa [hc] using decodeClass0_rejectsWhen op
  case h_6 hc | h_10 hc => simpa [hc] using rejectsWhen_ite op _
  case h_9 hc => simpa [hc] using decodeClass8_rejectsWhen op
  case h_15 hc => simpa [hc] using decodeClassE_rejectsWhen op
  case h_16 =>
    have hc : opClass op = 0xF#4 := by apply class_eq_F <;> assumption
    simpa [hc] using decodeClassF_rejectsWhen op
  all_goals exact .of_ok _ (by simp [*])

/-- Settles O3, by the classes of R96. -/
theorem decodeRejectsExactlyIllegalWords : Obligations.DecodeRejectsExactlyIllegalWords := decode_rejectsWhen

/-- Settles O4: seven closed words, decoded. -/
theorem sampleWordsDecode : Obligations.SampleWordsDecode := by
  unfold Obligations.SampleWordsDecode
  decide

end Sys2Proof

namespace Sys2Proof.Machine

/-- Settles O8: the decoder rejects the fetched word, and the Step takes the fault of a rejected word. -/
theorem illegalWordHaltsWithRecord : Obligations.IllegalWordHaltsWithRecord := by
  intro s k r op hrun hevent hfetch hillegal
  have hfetch' : fetch s.takeEvent = .ok op := (fetch_congr rfl rfl).trans hfetch
  rw [step_of_step hevent]
  exact stepEvent_of_unsupported k r hrun hfetch' ((decode_rejectsWhen op).1 hillegal)

end Sys2Proof.Machine
end

section
/-! The cycle: a Step fetches, decodes and runs one instruction (40_execute_cycle.md R120 to R128), and a fault of an
instruction commits nothing (R125). -/

namespace Sys2Proof.Machine

open Sys2Proof.Claims

/-! ### Faults -/

/-- Settles O45: of the effects only a fault sets the latch. -/
theorem faultingInstructionCommitsNothing : Obligations.FaultingInstructionCommitsNothing := by
  intro i s t h hrun hhalted
  cases effect_of_exec h with
  | fault cause addr haddr hout => exact ⟨cause, addr, h, haddr, hout⟩
  | _ => exact absurd (hrun.symm.trans hhalted) Bool.false_ne_true

/-! ### Instructions that read no input -/

theorem State.skipIf_sample (s : State) (c : Bool) (k : Keys) (r : Byte) :
    (s.sample k r).skipIf c = (s.skipIf c).sample k r := by
  cases c <;> rfl

/-- The range check reads `I` alone, and its fault keeps the inputs. -/
theorem State.ifInRange_sample {s t u : State} {i : Instr} {n : Nat} {k : Keys} {r : Byte} (hu : u = t.sample k r) :
    (s.sample k r).ifInRange i n u = (s.ifInRange i n t).sample k r := by
  subst hu
  obtain ⟨hle, h⟩ | ⟨hgt, h⟩ := ifInRange_cases s i n t
  · rw [h]; exact ifInRange_of_le hle
  · rw [h]; exact ifInRange_of_gt hgt

/-- Settles O51: no operation that such an instruction is made of reads the inputs, so sampling before it and sampling
after it are the same. -/
theorem otherInstructionsIgnoreInputs : Obligations.OtherInstructionsIgnoreInputs := by
  intro i s t k r hi h
  cases i with
  | rnd | skp | sknp | ldVxK => exact absurd trivial hi
  | ret =>
    obtain hs | ⟨st, a, hs⟩ := s.stack.eq_nil_or_concat'
    · rw [exec_ret_of_nil hs] at h; cases h; exact exec_ret_of_nil hs
    · rw [exec_ret_of_append hs] at h; cases h; exact exec_ret_of_append hs
  | call nnn =>
    by_cases hs : s.stack.length = s.cfg.stackDepth
    · rw [exec_call_of_full nnn hs] at h; cases h; exact exec_call_of_full nnn hs
    · rw [exec_call_of_room nnn hs] at h; cases h; exact exec_call_of_room nnn hs
  | seImm | sneImm | seReg | sneReg => cases h; exact congrArg Host.Outcome.next (State.skipIf_sample s.preAdvance _ k r)
  | ldB | ldMemVx | ldVxMem => cases h; exact congrArg Host.Outcome.next (State.ifInRange_sample rfl)
  | drw x y n =>
    obtain rfl | hn := n.eq_zero_or_pos
    · cases h; rfl
    · rw [exec_drw_of_pos s x y hn] at h
      cases h
      rw [exec_drw_of_pos _ x y hn]
      exact congrArg Host.Outcome.next (State.ifInRange_sample rfl)
  | addI x =>
    cases h
    split
    · exact congrArg Host.Outcome.next (if_pos ‹_›)
    · exact congrArg Host.Outcome.next (if_neg ‹_›)
  | _ => cases h; rfl

/-! ### The fetch and the Step -/

/-- Settles O5: the bytes at `PC` are what the fetch gives, and the Step runs what they decode to. -/
theorem stepRunsDecodedInstruction : Obligations.StepRunsDecodedInstruction := by
  intro s k r i hrun hevent hpc hdecode
  have hfetch : fetch s.takeEvent = .ok (bigEndian (s.mem.read s.pc.toNat) (s.mem.read (s.pc.toNat + 1))) :=
    fetch_eq_ok.mpr ⟨hpc, rfl⟩
  rw [step_of_step hevent]
  exact stepEvent_of_ok k r hrun hfetch hdecode

/-- Settles O7: the fetch below 0xFFF, and the Step's fault at 0xFFF and above. -/
theorem fetchIsBigEndianAndBounded : Obligations.FetchIsBigEndianAndBounded := by
  intro s k r
  refine ⟨fun hpc => ⟨_, fetch_eq_ok.mpr ⟨hpc, rfl⟩, bigEndian_toNat _ _⟩, fun hpc hrun hevent => ?_⟩
  have hfetch : fetch s.takeEvent = .error (firstOutside s.pc) := fetch_eq_error.mpr ⟨hpc, rfl⟩
  rw [step_of_step hevent]
  exact stepEvent_of_error k r hrun hfetch

/-- Settles O9: of either event only the taking of it is left. -/
theorem haltedCoreChangesNothing : Obligations.HaltedCoreChangesNothing := by
  intro s hhalted
  refine ⟨fun ⟨k, r, hevent⟩ => ?_, fun hevent => ?_⟩
  · rw [step_of_step hevent]
    exact stepEvent_of_halted k r hhalted
  · rw [step_of_tick hevent]
    exact congrArg _ (tick_of_halted hhalted)

/-! ### Every event but a Reset has a next state (R128) -/

/-- Settles O43: each of the 34 meanings is a next state, whatever case within it is taken. -/
theorem everyInstructionAnswersNext : Obligations.EveryInstructionAnswersNext := by
  intro i s
  cases i <;> exact ⟨_, rfl⟩

/-- A Step event answers a next state: the core is halted, the fetch or the decode faults, or one instruction runs. -/
theorem stepEvent_answersNext (s : State) (k : Keys) (r : Byte) : ∃ t, s.stepEvent k r = .next t := by
  obtain ⟨-, e⟩ | ⟨-, a, -, e⟩ | ⟨-, op, d, -, -, e⟩ | ⟨-, op, i, -, -, e⟩ := stepEvent_cases s k r
  · exact ⟨_, e⟩
  · exact ⟨_, e⟩
  · exact ⟨_, e⟩
  · rw [e]; exact everyInstructionAnswersNext i _

/-- Settles O44: by the next event, which is a Step or a Tick. -/
theorem stepsAndTicksAnswerNext : Obligations.StepsAndTicksAnswerNext := by
  intro s hreset
  cases hevent : s.nextEvent with
  | step k r => rw [step_of_step hevent]; exact stepEvent_answersNext _ k r
  | tick => exact ⟨_, step_of_tick hevent⟩
  | reset p => exact absurd hevent (hreset p)

end Sys2Proof.Machine
end

section
/-! Control transfer: where the jumps go, what a call and a return do to the stack, and the stack law (41_control_flow.md
R140 to R144). -/

namespace Sys2Proof.Machine

open Sys2Proof.Claims

/-! ### Jumps (R141, R143) -/

theorem toNat_addrOf (nnn : BitVec 12) : (addrOf nnn).toNat = nnn.toNat :=
  BitVec.toNat_setWidth_of_le (by decide)

/-- The target of a JP V0 is at most 0xFFF + 0xFF, so the unmasked sum does not wrap (R143, D13). -/
theorem toNat_offsetTarget (nnn : BitVec 12) (b : Byte) : (offsetTarget nnn b).toNat = nnn.toNat + b.toNat := by
  have hn := nnn.isLt
  have hb := b.isLt
  rw [offsetTarget, BitVec.toNat_ofNat]
  exact Nat.mod_eq_of_lt (by omega)

/-- Settles O15: both set `PC` alone, to the zero-extended address and to a sum that fits in a word. -/
theorem jumpsSetPc : Obligations.JumpsSetPc := by
  intro s nnn
  exact ⟨⟨_, rfl, toNat_addrOf nnn, fun _ => rfl, registersOnly_setPc s _⟩,
    ⟨_, rfl, toNat_offsetTarget nnn (s.reg 0), fun _ => rfl, registersOnly_setPc s _⟩⟩

/-! ### Calls and returns (R140, R142) -/

/-- A step that writes the call stack and `PC`. -/
theorem stackOnly_withStackPc (s : State) (st : List Word) (p : Word) :
    StackOnly s { s with stack := st, pc := p } :=
  ⟨fun _ => rfl, rfl, fun _ => rfl, fun _ _ => rfl, ⟨rfl, rfl⟩, ⟨rfl, rfl⟩, ⟨rfl, rfl, rfl, rfl⟩⟩

/-- Settles O16, by whether the stack has room. -/
theorem callPushesReturnAddress : Obligations.CallPushesReturnAddress := by
  intro s nnn
  exact ⟨fun hroom => ⟨_, exec_call_of_room nnn hroom, rfl, toNat_addrOf nnn, stackOnly_withStackPc s _ _⟩,
    exec_call_of_full nnn⟩

/-- Settles O17, by whether the stack has a last entry. -/
theorem returnPopsLastPushed : Obligations.ReturnPopsLastPushed := by
  intro s
  exact ⟨fun st r hs => ⟨_, exec_ret_of_append hs, rfl, rfl, stackOnly_withStackPc s st r⟩, exec_ret_of_nil⟩

/-! ### The stack law (R144) -/

/-- A run completes exactly if its first instruction does, without a fault, and the rest completes from there. -/
theorem runAll_cons_eq_some {i : Instr} {is : List Instr} {s u : State} :
    runAll (i :: is) s = some u ↔ ∃ t, exec i s = .next t ∧ t.halted = false ∧ runAll is t = some u := by
  rw [runAll]
  split
  case h_1 t hexec => cases hhalted : t.halted <;> simp [hexec, hhalted]
  case h_2 hexec => exact ⟨(nomatch ·), fun ⟨t, ht, _⟩ => (hexec t ht).elim⟩

theorem runAll_append {is js : List Instr} {s t u : State} (his : runAll is s = some t) (hjs : runAll js t = some u) :
    runAll (is ++ js) s = some u := by
  induction is generalizing s with
  | nil => cases his; exact hjs
  | cons i is ih =>
    obtain ⟨r, hexec, hrun, hrest⟩ := runAll_cons_eq_some.mp his
    exact runAll_cons_eq_some.mpr ⟨r, hexec, hrun, ih hrest⟩

/-- A subroutine whose body moves `PC` alone returns to the opcode after its call, with nothing else changed: the return
pops what the call pushed. -/
theorem runAll_call_body_ret {s : State} {nnn : BitVec 12} {body : List Instr} {p : Word} (hrun : s.halted = false)
    (hroom : s.stack.length ≠ s.cfg.stackDepth)
    (hbody : runAll body { s with stack := s.stack ++ [s.pc + 2], pc := addrOf nnn } =
      some { s with stack := s.stack ++ [s.pc + 2], pc := p }) :
    runAll (.call nnn :: (body ++ [.ret])) s = some { s with pc := s.pc + 2 } := by
  have hret : runAll [.ret] { s with stack := s.stack ++ [s.pc + 2], pc := p } = some { s with pc := s.pc + 2 } :=
    runAll_cons_eq_some.mpr ⟨_, exec_ret_of_append rfl, hrun, rfl⟩
  exact runAll_cons_eq_some.mpr ⟨_, exec_call_of_room nnn hroom, hrun, runAll_append hbody hret⟩

/-- The calls to `targets`, then as many returns. -/
def callsThenReturns (targets : List (BitVec 12)) : List Instr :=
  targets.map Instr.call ++ List.replicate targets.length Instr.ret

/-- The first call and the last return enclose the calls and returns between them. -/
theorem callsThenReturns_cons (nnn : BitVec 12) (targets : List (BitVec 12)) :
    callsThenReturns (nnn :: targets) = .call nnn :: (callsThenReturns targets ++ [.ret]) := by
  simp [callsThenReturns, List.replicate_succ']

/-- By induction on the nesting: the calls and returns inside the first call are a body that moves `PC` alone. -/
theorem runAll_callsThenReturns {s : State} (nnn : BitVec 12) (targets : List (BitVec 12)) (hrun : s.halted = false)
    (hroom : s.stack.length + targets.length < s.cfg.stackDepth) :
    runAll (callsThenReturns (nnn :: targets)) s = some { s with pc := s.pc + 2 } := by
  rw [callsThenReturns_cons]
  induction targets generalizing s nnn with
  | nil => exact runAll_call_body_ret hrun hroom.ne rfl
  | cons next rest ih =>
    rw [List.length_cons] at hroom
    have hroom' : (s.stack ++ [s.pc + 2]).length + rest.length < s.cfg.stackDepth := by
      rw [List.length_append, List.length_singleton]
      omega
    rw [callsThenReturns_cons]
    exact runAll_call_body_ret hrun (by omega) (ih next hrun hroom')

/-- Settles O18: a nonempty list of targets has a first call, and the rest of the list fits above it. -/
theorem callsThenReturnsComeBack : Obligations.CallsThenReturnsComeBack := by
  intro s targets hne hrun hroom
  cases targets with
  | nil => exact absurd rfl hne
  | cons nnn rest => exact runAll_callsThenReturns nnn rest hrun hroom

end Sys2Proof.Machine
end

section
/-! Conditional skips: each of the six is the pre-advance and one more opcode under its test (42_skips.md R160 to R166). -/

namespace Sys2Proof.Machine

open Sys2Proof.Claims

/-- The shape of all six skips: the test `b` that decides the second advance is the condition `c` of the rule. -/
theorem skipsWhen_of_skipIf {i : Instr} {s : State} {c : Prop} {b : Bool}
    (hexec : exec i s = .next (s.preAdvance.skipIf b)) (hb : b = true ↔ c) : SkipsWhen i s c := by
  refine ⟨_, hexec, fun hc => ?skipped, fun hc => ?advanced, State.reg_skipIf s.preAdvance b, registersOnly_skipIf s b⟩
  case skipped =>
    rw [hb.mpr hc]
    exact BitVec.add_assoc s.pc 2 2
  case advanced => rw [Bool.eq_false_iff.mpr (mt hb.mp hc)]; rfl

/-- Equality of bytes as the model tests it and as the rules read it, on the numbers the bytes stand for. -/
theorem byte_beq_iff {a b : Byte} : (a == b) = true ↔ a.toNat = b.toNat :=
  beq_iff_eq.trans BitVec.toNat_inj.symm

theorem byte_bne_iff {a b : Byte} : (a != b) = true ↔ a.toNat ≠ b.toNat :=
  bne_iff_ne.trans BitVec.toNat_inj.not.symm

/-- Settles O19: the tests of SE and SNE are equality of the register and the immediate, and its complement. -/
theorem immediateSkips : Obligations.ImmediateSkips := fun _ _ _ =>
  ⟨skipsWhen_of_skipIf rfl byte_beq_iff, skipsWhen_of_skipIf rfl byte_bne_iff⟩

/-- Settles O20: as against an immediate, for any two registers, also the same one twice. -/
theorem registerSkips : Obligations.RegisterSkips := fun _ _ _ =>
  ⟨skipsWhen_of_skipIf rfl byte_beq_iff, skipsWhen_of_skipIf rfl byte_bne_iff⟩

/-- The test of SKNP is the complement of `Pressed`, so it holds for every value above 15 (R165, R166, D15). -/
theorem not_pressed_eq_true {k : Keys} {x : Byte} : (!pressed k x) = true ↔ ¬ IsPressed k x := by
  rw [Bool.not_eq_true', ← Bool.not_eq_true, pressed_eq_true]

/-- Settles O21: the tests of SKP and SKNP are `Pressed` on the sampled set, and its complement. -/
theorem keySkips : Obligations.KeySkips := fun _ _ =>
  ⟨skipsWhen_of_skipIf rfl pressed_eq_true, skipsWhen_of_skipIf rfl not_pressed_eq_true⟩

end Sys2Proof.Machine
end

section
/-! Register loads, arithmetic and logic: each instruction writes one register, or a result and then the flag, with the
value of its rule (43_register_alu.md R180 to R191). -/

namespace Sys2Proof.Machine

open Sys2Proof.Claims

/-! ### The two shapes -/

/-- The shape of the instructions that write no flag. -/
theorem writesReg_of_setReg {i : Instr} {s : State} {x : RegIdx} {b : Byte} {n : Nat}
    (hexec : exec i s = .next (s.preAdvance.setReg x b)) (hb : b.toNat = n) : WritesReg i s x n := by
  refine ⟨_, hexec, ?written, sameRegsBut_setReg s x b, rfl, registersOnly_setReg s x b⟩
  case written => rw [State.reg_setReg, if_pos rfl, hb]

/-- The shape of the instructions that write a result and then the flag, which `VF` holds also as a destination
(10_state.md R22). -/
theorem writesThenFlag_of_setResultFlag {i : Instr} {s : State} {x : RegIdx} {r f : Byte} {n m : Nat}
    (hexec : exec i s = .next (s.preAdvance.setResultFlag x r f)) (hr : r.toNat = n) (hf : f.toNat = m) :
    WritesThenFlag i s x n m := by
  refine ⟨_, hexec, ?flag, fun hx => ?result, sameRegsBut_setResultFlag s x r f, rfl,
    registersOnly_setResultFlag s x r f⟩
  case flag => rw [State.reg_setResultFlag, if_pos rfl, hf]
  case result => rw [State.reg_setResultFlag, if_neg hx, if_pos rfl, hr]

/-! ### The values written -/

/-- The wrapped sum of 7XNN and 8XY4 (R181, R186). -/
theorem toNat_sum8 (a b : Byte) : (sum8 a b).toNat = (a.toNat + b.toNat) % 256 := BitVec.toNat_ofNat _ 8

/-- The wrapped difference of 8XY5 and 8XY7 (R187, R189). -/
theorem toNat_diff8 (a b : Byte) : (diff8 a b).toNat = (a.toNat + 256 - b.toNat) % 256 := BitVec.toNat_ofNat _ 8

/-- Half a byte is a byte, so nothing is cut off. -/
theorem toNat_shiftRight1 (a : Byte) : (shiftRight1 a).toNat = a.toNat / 2 := by
  have ha := a.isLt
  rw [shiftRight1, BitVec.toNat_ofNat, Nat.shiftRight_eq_div_pow]
  exact Nat.mod_eq_of_lt (by omega)

theorem toNat_shiftLeft1 (a : Byte) : (shiftLeft1 a).toNat = a.toNat * 2 % 256 := by
  rw [shiftLeft1, BitVec.toNat_ofNat, Nat.shiftLeft_eq]

/-! ### The flags written (10_state.md R22) -/

/-- A flag that tells whether `c` holds, as a number. -/
theorem toNat_flagByte_decide (c : Prop) [Decidable c] : (flagByte (decide c)).toNat = if c then 1 else 0 := by
  simp only [toNat_flagByte, decide_eq_true_eq]

theorem toNat_carryFlag (a b : Byte) : (carryFlag a b).toNat = if a.toNat + b.toNat > 255 then 1 else 0 :=
  toNat_flagByte_decide _

theorem toNat_notBorrowFlag (a b : Byte) : (notBorrowFlag a b).toNat = if a.toNat ≥ b.toNat then 1 else 0 :=
  toNat_flagByte_decide _

/-- A flag that is a bit of a byte, as a number. -/
theorem toNat_flagByte_getLsbD (a : Byte) (k : Nat) : (flagByte (a.getLsbD k)).toNat = a.toNat / 2 ^ k % 2 := by
  rw [toNat_flagByte, BitVec.getLsbD, ← Bool.cond_eq_ite]
  exact Nat.toNat_testBit _ k

theorem toNat_shrFlag (a : Byte) : (shrFlag a).toNat = a.toNat % 2 := by
  rw [shrFlag, toNat_flagByte_getLsbD, Nat.pow_zero, Nat.div_one]

/-- What is above the top bit of a byte is that bit. -/
theorem toNat_shlFlag (a : Byte) : (shlFlag a).toNat = a.toNat / 128 := by
  have ha := a.isLt
  rw [shlFlag, toNat_flagByte_getLsbD]
  exact Nat.mod_eq_of_lt (by omega)

theorem State.toNat_shiftOperand (s : State) (x y : RegIdx) :
    (s.shiftOperand x y).toNat = if s.cfg.shiftCopyVy then (s.reg y).toNat else (s.reg x).toNat :=
  apply_ite BitVec.toNat _ _ _

/-! ### The instructions -/

/-- Settles O22: both write the byte itself. -/
theorem loadsWriteTheirDestination : Obligations.LoadsWriteTheirDestination := fun _ _ _ _ =>
  ⟨writesReg_of_setReg rfl rfl, writesReg_of_setReg rfl rfl⟩

/-- Settles O23: the sum is written as for two registers, but no flag. -/
theorem addImmediateWrapsWithoutFlag : Obligations.AddImmediateWrapsWithoutFlag := fun _ _ _ =>
  writesReg_of_setReg rfl (toNat_sum8 _ _)

/-- Settles O24: the bitwise operations of bytes are those of the numbers they stand for. -/
theorem logicWritesNoFlag : Obligations.LogicWritesNoFlag := fun _ _ _ =>
  ⟨writesReg_of_setReg rfl (BitVec.toNat_or _ _), writesReg_of_setReg rfl (BitVec.toNat_and _ _),
    writesReg_of_setReg rfl (BitVec.toNat_xor _ _)⟩

/-- Settles O25: the sum, and the carry of the same two operands. -/
theorem addSetsCarryLast : Obligations.AddSetsCarryLast := fun _ _ _ =>
  writesThenFlag_of_setResultFlag rfl (toNat_sum8 _ _) (toNat_carryFlag _ _)

/-- Settles O26: the difference, and the not-borrow of the same two operands, either way round. -/
theorem subtractSetsNotBorrowLast : Obligations.SubtractSetsNotBorrowLast := fun _ _ _ =>
  ⟨writesThenFlag_of_setResultFlag rfl (toNat_diff8 _ _) (toNat_notBorrowFlag _ _),
    writesThenFlag_of_setResultFlag rfl (toNat_diff8 _ _) (toNat_notBorrowFlag _ _)⟩

/-- Settles O27: `v` is the shift operand under either value of `P.shift_copy_vy`, so both shifts are of `v`. -/
theorem shiftsSetShiftedOutBitLast : Obligations.ShiftsSetShiftedOutBitLast := by
  intro s x y v hv
  rw [hv, ← State.toNat_shiftOperand]
  exact ⟨writesThenFlag_of_setResultFlag rfl (toNat_shiftRight1 _) (toNat_shrFlag _),
    writesThenFlag_of_setResultFlag rfl (toNat_shiftLeft1 _) (toNat_shlFlag _)⟩

/-- Settles O28: the byte sampled for the step, under the mask. -/
theorem randomIsMaskedInput : Obligations.RandomIsMaskedInput := fun _ _ _ =>
  writesReg_of_setReg rfl (BitVec.toNat_and _ _)

end Sys2Proof.Machine
end

section
/-! The index register and the transfers in range: what each writes and what it leaves unchanged (44_index_and_memory.md
R210 to R215). -/

namespace Sys2Proof.Machine

open Sys2Proof.Claims

/-! ### The index register (R210 to R212) -/

/-- The largest glyph address is 5 * 255, so the unmasked product does not wrap (R212, D24). -/
theorem toNat_glyphAddress (b : Byte) : (glyphAddress b).toNat = b.toNat * 5 := by
  have hb := b.isLt
  rw [glyphAddress, BitVec.toNat_ofNat]
  exact Nat.mod_eq_of_lt (by omega)

/-- Settles O29: both write `I` alone, with the zero-extended address and with a product that fits in a word. -/
theorem indexLoads : Obligations.IndexLoads := by
  intro s x nnn
  exact ⟨⟨_, rfl, toNat_addrOf nnn, rfl, fun _ => rfl, indexOnly_setI s _⟩,
    ⟨_, rfl, toNat_glyphAddress (s.reg x), rfl, fun _ => rfl, indexOnly_setI s _⟩⟩

theorem toNat_indexFlag (sum : Nat) : (indexFlag sum).toNat = if sum > 0xFFF then 1 else 0 :=
  toNat_flagByte_decide _

/-- A register may also be written in the frame of an instruction that writes `I`. -/
theorem IndexAndRegistersOnly.setReg {s t : State} (h : IndexAndRegistersOnly s t) (x : RegIdx) (b : Byte) :
    IndexAndRegistersOnly s (t.setReg x b) := by
  obtain ⟨hstack, hmem, hscreen, htimers, hkeyWait, hcontrol⟩ := h
  exact ⟨hstack, hmem, hscreen, ⟨htimers.dt, htimers.st⟩, ⟨hkeyWait.active, hkeyWait.prev⟩,
    ⟨hcontrol.cfg, hcontrol.halted, hcontrol.fault, hcontrol.env⟩⟩

/-- FX1E with the flag: the sum goes to `I`, then the flag to `VF` (R211, D19). -/
theorem exec_addI_of_flag {s : State} (x : RegIdx) (h : s.cfg.fx1eSetsVf = true) :
    exec (.addI x) s = .next ((s.preAdvance.setI (BitVec.ofNat 16 (indexSum s.i (s.reg x)))).setReg vf
      (indexFlag (indexSum s.i (s.reg x)))) :=
  congrArg _ (if_pos h)

/-- FX1E without the flag: only `I` is written. -/
theorem exec_addI_of_noFlag {s : State} (x : RegIdx) (h : ¬ s.cfg.fx1eSetsVf = true) :
    exec (.addI x) s = .next (s.preAdvance.setI (BitVec.ofNat 16 (indexSum s.i (s.reg x)))) :=
  congrArg _ (if_neg h)

/-- Settles O30, by whether `P.fx1e_sets_vf`: `I` gets the sum at 16 bits either way. -/
theorem addIndexSetsOverflowFlag : Obligations.AddIndexSetsOverflowFlag := by
  intro s x
  have hsum : (BitVec.ofNat 16 (indexSum s.i (s.reg x))).toNat = (s.i.toNat + (s.reg x).toNat) % 65536 :=
    BitVec.toNat_ofNat _ 16
  by_cases hf : s.cfg.fx1eSetsVf = true
  case pos =>
    refine ⟨_, exec_addI_of_flag x hf, hsum, rfl, (indexOnly_setI s _).setReg vf _, fun j hj => ?others, fun _ => ?flag⟩
    case others =>
      have hne : j ≠ vf := fun e => hj ⟨hf, e⟩
      rw [State.reg_setReg, if_neg hne]
      rfl
    case flag =>
      rw [State.reg_setReg, if_pos rfl]
      exact toNat_indexFlag _
  case neg =>
    exact ⟨_, exec_addI_of_noFlag x hf, hsum, rfl, indexOnly_setI s _, fun _ _ => rfl, fun h => absurd h hf⟩

/-! ### Stores (R213, R214) -/

/-- A step that writes memory. -/
theorem memoryOnly_withMem (s : State) (m : Memory) : MemoryOnly s { s.preAdvance with mem := m } :=
  ⟨fun _ => rfl, rfl, rfl, fun _ _ => rfl, ⟨rfl, rfl⟩, ⟨rfl, rfl⟩, ⟨rfl, rfl, rfl, rfl⟩⟩

/-- A store leaves every byte outside its block as before (20_memory.md R65). -/
theorem sameMemoryOutside_writeBytes {s : State} {bs : List Byte} (hwf : s.mem.wf)
    (hfit : s.i.toNat + bs.length ≤ memSize) :
    SameMemoryOutside s.i.toNat bs.length s { s.preAdvance with mem := s.mem.writeBytes s.i.toNat bs } :=
  fun a ha => (Memory.read_writeBytes hwf _ _ hfit a).trans (if_neg ha)

/-- The `j`-th byte of a stored block stands at its `j`-th address. -/
theorem read_writeBytes_add {m : Memory} {a j : Nat} {bs : List Byte} (hwf : m.wf) (hfit : a + bs.length ≤ memSize)
    (hj : j < bs.length) : (m.writeBytes a bs).read (a + j) = bs.getD j 0 := by
  rw [Memory.read_writeBytes hwf _ _ hfit, if_pos (by omega), Nat.add_sub_cancel_left]

/-- A decimal store that fits in memory completes (R213). -/
theorem exec_ldB_of_le {s : State} {x : RegIdx} (h : s.i.toNat + 2 ≤ 0xFFF) :
    exec (.ldB x) s = .next { s.preAdvance with mem := s.mem.writeBytes s.i.toNat (bcdDigits (s.reg x)) } :=
  congrArg _ (ifInRange_of_le h)

/-- A number at most a byte is a byte, so nothing of it is cut off. -/
theorem toNat_ofNat_of_le_byte {n : Nat} (b : Byte) (h : n ≤ b.toNat) : (BitVec.ofNat 8 n).toNat = n := by
  rw [BitVec.toNat_ofNat]
  exact Nat.mod_eq_of_lt (h.trans_lt b.isLt)

/-- The digits are those of the rule: each is at most the number itself (R213). -/
theorem map_toNat_bcdDigits (b : Byte) :
    (bcdDigits b).map BitVec.toNat = [b.toNat / 100, b.toNat / 10 % 10, b.toNat % 10] := by
  have hhundreds := toNat_ofNat_of_le_byte b (Nat.div_le_self b.toNat 100)
  have htens := toNat_ofNat_of_le_byte b ((Nat.mod_le _ 10).trans (Nat.div_le_self b.toNat 10))
  have hones := toNat_ofNat_of_le_byte b (Nat.mod_le b.toNat 10)
  rw [bcdDigits, List.map_cons, List.map_cons, List.map_singleton, hhundreds, htens, hones]

/-- After a decimal store the byte at `I + j` is digit `j` (R213). -/
theorem toNat_read_bcdDigits {m : Memory} {a j : Nat} (b : Byte) (hwf : m.wf) (hfit : a + 2 ≤ 0xFFF) (hj : j < 3) :
    ((m.writeBytes a (bcdDigits b)).read (a + j)).toNat = [b.toNat / 100, b.toNat / 10 % 10, b.toNat % 10].getD j 0 := by
  have hend : a + (bcdDigits b).length ≤ memSize := Nat.succ_le_succ hfit
  rw [read_writeBytes_add hwf hend hj, ← map_toNat_bcdDigits]
  exact (List.getD_map _ (0 : Byte) BitVec.toNat).symm

/-- Settles O31: the block stored at `I` is the three digits. -/
theorem bcdStoresThreeDigits : Obligations.BcdStoresThreeDigits := by
  intro s x hwf hfit
  have hdigit {j : Nat} (hj : j < 3) := toNat_read_bcdDigits (s.reg x) hwf hfit hj
  have hend : s.i.toNat + (bcdDigits (s.reg x)).length ≤ memSize := Nat.succ_le_succ hfit
  exact ⟨_, exec_ldB_of_le hfit, hdigit (j := 0) (by decide), hdigit (j := 1) (by decide), hdigit (j := 2) (by decide),
    sameMemoryOutside_writeBytes hwf hend, rfl, memoryOnly_withMem s _⟩

/-- Settles O32: the block stored at `I` is `V[0..X]`. -/
theorem storeBlockWritesRegisters : Obligations.StoreBlockWritesRegisters := by
  intro s x hwf hfit
  have hlen := s.length_regBlock x
  have houtside := sameMemoryOutside_writeBytes (bs := s.regBlock x) hwf (hlen ▸ Nat.succ_le_succ hfit)
  rw [hlen] at houtside
  exact ⟨_, exec_ldMemVx_of_le hfit, fun j hj => read_regBlock hwf hfit hj, houtside, rfl, memoryOnly_withMem s _⟩

/-! ### The block load (R215) -/

/-- A step that writes any registers. -/
theorem registersOnly_withRegs (s : State) (v : Vector Byte 16) : RegistersOnly s { s.preAdvance with v := v } :=
  ⟨rfl, rfl, fun _ => rfl, fun _ _ => rfl, ⟨rfl, rfl⟩, ⟨rfl, rfl⟩, ⟨rfl, rfl, rfl, rfl⟩⟩

/-- A block load that fits in memory completes (R215). -/
theorem exec_ldVxMem_of_le {s : State} {x : RegIdx} (h : s.i.toNat + x.val ≤ 0xFFF) :
    exec (.ldVxMem x) s =
      .next { s.preAdvance with v := loadRegs s.v 0 (s.mem.readBytes s.i.toNat (x.val + 1)) } :=
  congrArg _ (ifInRange_of_le h)

/-- Loading `n` bytes of memory from `a` into the registers from `V0` on: `V[j]` is the byte at `a + j` for the first
`n`, and the others are as before. -/
theorem getElem_loadRegs_readBytes (v : Vector Byte 16) (m : Memory) (a n : Nat) (j : RegIdx) :
    (loadRegs v 0 (m.readBytes a n))[j] = if j.val < n then m.read (a + j.val) else v[j] := by
  rw [getElem_loadRegs, Memory.length_readBytes, Nat.zero_add, Nat.sub_zero]
  by_cases hj : j.val < n
  case pos =>
    rw [if_pos ⟨Nat.zero_le _, hj⟩, if_pos hj, List.getD_eq_getElem?_getD, Memory.getElem?_readBytes m a n j hj,
      Option.getD_some]
  case neg => rw [if_neg fun h => hj h.2, if_neg hj]

/-- Settles O33: the registers up to `X` are the first `X + 1`. -/
theorem loadBlockReadsMemory : Obligations.LoadBlockReadsMemory := by
  intro s x hfit
  have hreg := getElem_loadRegs_readBytes s.v s.mem s.i.toNat (x.val + 1)
  refine ⟨_, exec_ldVxMem_of_le hfit, fun j hj => ?loaded, fun j hj => ?others, rfl, registersOnly_withRegs s _⟩
  case loaded => exact (hreg j).trans (if_pos (Nat.lt_succ_of_le hj))
  case others => exact (hreg j).trans (if_neg (mt Nat.le_of_lt_succ hj))

end Sys2Proof.Machine
end

section
/-! The timer transfers and the key wait: what FX07, FX15, FX18 and FX0A write, and that nothing but an FX0A runs while a
wait is on (45_timers_and_keywait.md R230 to R237). -/

namespace Sys2Proof.Machine

open Sys2Proof.Claims

/-! ### The timer transfers (R230 to R232) -/

/-- A step that writes timers. -/
theorem timersOnly_withTimers (s : State) (dt st : Byte) : TimersOnly s { s.preAdvance with dt := dt, st := st } :=
  ⟨fun _ => rfl, rfl, rfl, fun _ => rfl, fun _ _ => rfl, ⟨rfl, rfl⟩, ⟨rfl, rfl, rfl, rfl⟩⟩

/-- Settles O36: FX07 writes one register, the other two write one timer each. -/
theorem timerTransfers : Obligations.TimerTransfers := by
  intro s x
  exact ⟨writesReg_of_setReg rfl rfl,
    ⟨_, rfl, rfl, rfl, rfl, timersOnly_withTimers s (s.reg x) s.st⟩,
    ⟨_, rfl, rfl, rfl, rfl, timersOnly_withTimers s s.dt (s.reg x)⟩⟩

/-! ### The edge set of a wait (R234, R235) -/

/-- The edge set that FX0A computes in `s` holds the edge keys of R234, in either mode of `P.keywait_edge`. -/
theorem getLsbD_edges_eq_true {s : State} {k : Nat} (hk : k < 16) :
    (edges s.cfg.keywaitEdge s.kwPrev s.env.keys).getLsbD k = true ↔ IsEdge s k := by
  rw [getLsbD_edges _ _ _ k hk]
  unfold IsEdge
  cases s.cfg.keywaitEdge with
  | release => simp
  | press => simp [and_comm]

theorem lowestKey_edges_eq_none {s : State} (h : ∀ k < 16, ¬ IsEdge s k) :
    lowestKey (edges s.cfg.keywaitEdge s.kwPrev s.env.keys) = none := by
  refine lowestKey_eq_none.mpr (BitVec.eq_of_getLsbD_eq fun k hk => ?_)
  rw [Bool.eq_false_iff.mpr (mt (getLsbD_edges_eq_true hk).mp (h k hk))]
  exact BitVec.getLsbD_zero.symm

theorem lowestKey_edges_eq_some {s : State} {k : Nat} (hk : k < 16) (hedge : IsEdge s k)
    (hlowest : ∀ j < k, ¬ IsEdge s j) : lowestKey (edges s.cfg.keywaitEdge s.kwPrev s.env.keys) = some k := by
  refine lowestKey_eq_some.mpr ⟨hk, (getLsbD_edges_eq_true hk).mpr hedge, fun j hj => ?_⟩
  exact Bool.eq_false_iff.mpr (mt (getLsbD_edges_eq_true (hj.trans hk)).mp (hlowest j hj))

/-! ### FX0A (R233, R236) -/

/-- Without a wait in progress FX0A begins one. -/
theorem exec_ldVxK_of_idle {s : State} (x : RegIdx) (hidle : s.kwActive = false) :
    exec (.ldVxK x) s = .next s.keepWaiting := by
  simp only [exec, execLdVxK, hidle, Bool.false_eq_true, if_false]

/-- In a wait FX0A goes on without an edge. -/
theorem exec_ldVxK_of_noEdge {s : State} (x : RegIdx) (hwait : s.kwActive = true) (h : ∀ k < 16, ¬ IsEdge s k) :
    exec (.ldVxK x) s = .next s.keepWaiting := by
  simp only [exec, execLdVxK, hwait, if_true, lowestKey_edges_eq_none h]

/-- In a wait FX0A completes on an edge, with the lowest edge key. -/
theorem exec_ldVxK_of_edge {s : State} (x : RegIdx) {k : Nat} (hwait : s.kwActive = true) (hk : k < 16)
    (hedge : IsEdge s k) (hlowest : ∀ j < k, ¬ IsEdge s j) :
    exec (.ldVxK x) s =
      .next { s.preAdvance.setReg x (BitVec.ofNat 8 k) with kwActive := false, kwPrev := 0 } := by
  simp only [exec, execLdVxK, hwait, if_true, lowestKey_edges_eq_some hk hedge hlowest]

/-- An FX0A that stalls leaves `PC` and everything but the key-wait state as before (R236). -/
theorem keepsWaiting_of_exec {s : State} {x : RegIdx} (h : exec (.ldVxK x) s = .next s.keepWaiting) :
    KeepsWaiting x s :=
  ⟨_, h, pc_keepWaiting s, rfl, rfl, State.reg_keepWaiting s, keyWaitOnly_keepWaiting s⟩

/-- A step that writes one register and the key-wait state. -/
theorem keyWaitAndRegistersOnly_setReg (s : State) (x : RegIdx) (b : Byte) (active : Bool) (prev : Keys) :
    KeyWaitAndRegistersOnly s { s.preAdvance.setReg x b with kwActive := active, kwPrev := prev } :=
  ⟨rfl, rfl, fun _ => rfl, fun _ _ => rfl, ⟨rfl, rfl⟩, ⟨rfl, rfl, rfl, rfl⟩⟩

/-- Settles O39: FX0A stalls, outside a wait or without an edge, or it completes with the lowest edge key, which is a
byte. -/
theorem keyWaitCompletesOnEdge : Obligations.KeyWaitCompletesOnEdge := by
  intro s x
  refine ⟨fun hidle => ?begins, fun hwait hnoEdge => ?goesOn, fun k hk hwait hedge hlowest => ?completes⟩
  case begins => exact keepsWaiting_of_exec (exec_ldVxK_of_idle x hidle)
  case goesOn => exact keepsWaiting_of_exec (exec_ldVxK_of_noEdge x hwait hnoEdge)
  case completes =>
    have hkey : ((s.preAdvance.setReg x (BitVec.ofNat 8 k)).reg x).toNat = k := by
      rw [State.reg_setReg, if_pos rfl, BitVec.toNat_ofNat]
      exact Nat.mod_eq_of_lt (by omega)
    exact ⟨_, exec_ldVxK_of_edge x hwait hk hedge hlowest, hkey, sameRegsBut_setReg s x _, rfl, rfl, rfl,
      keyWaitAndRegistersOnly_setReg s x _ false 0⟩

/-! ### What runs during a wait (R237) -/

/-- Settles O55: by the invariant a wait stands, not halted, on a word that decodes to an FX0A. -/
theorem waitIsContinuedByKeyWait : Obligations.WaitIsContinuedByKeyWait := by
  intro s k r hinv hwait hevent
  obtain ⟨op, x, hfetch, hdecode⟩ := hinv.decode_of_waiting hwait
  have hrun : s.takeEvent.halted = false := (hinv.waiting hwait).2
  have hfetch' : fetch s.takeEvent = .ok op := (fetch_congr rfl rfl).trans hfetch
  exact ⟨x, (step_of_step hevent).trans (stepEvent_of_ok k r hrun hfetch' hdecode)⟩

end Sys2Proof.Machine
end

section
/-! The display: what 00E0 and DXYN do to the pixels and to `VF`, and that drawing twice restores the screen
(46_display.md R250 to R253). -/

namespace Sys2Proof.Machine

open Sys2Proof.Claims

/-- A step that writes the screen and any registers. -/
theorem screenAndRegistersOnly_withScreenRegs (s : State) (fb : FrameBuffer) (v : Vector Byte 16) :
    ScreenAndRegistersOnly s { s.preAdvance with fb := fb, v := v } :=
  ⟨rfl, rfl, fun _ => rfl, ⟨rfl, rfl⟩, ⟨rfl, rfl⟩, ⟨rfl, rfl, rfl, rfl⟩⟩

/-- The framebuffer is determined by its 64 by 32 pixels. -/
theorem fb_eq_of_sameScreen {s t : State} (h : SameScreen s t) : t.fb = s.fb :=
  Vector.ext fun y hy => BitVec.eq_of_getLsbD_eq fun x hx => h ⟨x, hx⟩ ⟨y, hy⟩

/-! ### Clearing (R250) -/

theorem pixelAt_blankScreen (x y : Nat) : pixelAt blankScreen x y = false := by
  rw [pixelAt, blankScreen, Vector.getElem_replicate]
  exact BitVec.getLsbD_zero

/-- Settles O40: CLS writes the screen alone, and the screen it writes is blank. -/
theorem clearTurnsEveryPixelOff : Obligations.ClearTurnsEveryPixelOff := fun s =>
  ⟨{ s.preAdvance with fb := blankScreen }, rfl, fun x y => (State.pixel_eq _ x y).trans (pixelAt_blankScreen x y),
    fun _ => rfl, rfl, screenAndRegistersOnly_withScreenRegs s blankScreen s.v⟩

/-! ### Drawing (R251, R252) -/

/-- The state in which a DXYN with its sprite in memory ends. -/
def State.afterDraw (s : State) (x y : RegIdx) (n : Nat) : State :=
  { s.preAdvance with fb := (s.drawSprite x y n).1 }.setReg vf (collisionFlag (s.drawSprite x y n).2)

section
variable {s : State} {x y : RegIdx} {n : Nat}

/-- With its sprite in memory, or no rows, DXYN completes (D21). -/
theorem exec_drw_of_spriteInMemory (h : SpriteInMemory s n) : exec (.drw x y n) s = .next (s.afterDraw x y n) := by
  obtain rfl | hn := n.eq_zero_or_pos
  case inl => rfl
  case inr =>
    have hfit : s.i.toNat + n - 1 ≤ 0xFFF := h.resolve_left hn.ne'
    exact (exec_drw_of_pos s x y hn).trans (congrArg _ (ifInRange_of_le hfit))

/-- The points of the sprite in memory, as the coordinates of their set bits. -/
theorem mem_spritePoints_readBytes {x0 y0 : Nat} {m : Memory} {a : Nat} {p : Nat × Nat} :
    p ∈ spritePoints x0 y0 (m.readBytes a n) ↔
      ∃ r < n, ∃ c < 8, (m.read (a + r)).getLsbD (7 - c) = true ∧ p = (x0 + c, y0 + r) := by
  rw [mem_spritePoints, Memory.length_readBytes]
  refine exists_congr fun r => and_congr_right fun hr => ?_
  rw [List.getD_eq_getElem?_getD, Memory.getElem?_readBytes m a n r hr, Option.getD_some]

/-- A pixel is covered exactly if a point of the sprite lies in its cell. -/
theorem exists_spritePoint_iff_spriteCovers {px : Fin 64} {py : Fin 32} :
    (∃ p ∈ spritePoints (s.reg x).toNat (s.reg y).toNat (s.mem.readBytes s.i.toNat n), SameCell p (px.val, py.val)) ↔
      SpriteCovers s x y n px py := by
  simp only [mem_spritePoints_readBytes, SameCell, Nat.mod_eq_of_lt px.isLt, Nat.mod_eq_of_lt py.isLt]
  constructor
  · rintro ⟨p, ⟨r, hr, c, hc, hbit, rfl⟩, hx, hy⟩
    exact ⟨r, hr, c, hc, hbit, hx, hy⟩
  · rintro ⟨r, hr, c, hc, hbit, hx, hy⟩
    exact ⟨_, ⟨r, hr, c, hc, hbit, rfl⟩, hx, hy⟩

/-- Every point of a sprite lies in the cell of some pixel of the screen. -/
theorem exists_pixel_sameCell (p : Nat × Nat) : ∃ (px : Fin 64) (py : Fin 32), SameCell p (px.val, py.val) :=
  ⟨Fin.ofNat 64 p.1, Fin.ofNat 32 p.2, (Nat.mod_mod _ _).symm, (Nat.mod_mod _ _).symm⟩

/-- A sprite of at most 15 rows is within the height of the screen. -/
theorem length_sprite_le (hn : n ≤ 15) : (s.mem.readBytes s.i.toNat n).length ≤ 32 := by
  rw [Memory.length_readBytes]
  omega

/-- A draw flips the covered pixels and no others. -/
theorem pixel_afterDraw (hn : n ≤ 15) (px : Fin 64) (py : Fin 32) :
    (s.afterDraw x y n).pixel px py = (s.pixel px py ^^ decide (SpriteCovers s x y n px py)) := by
  rw [State.pixel_eq, State.pixel_eq, ← decide_eq_decide.mpr exists_spritePoint_iff_spriteCovers]
  exact (drawRows_spec _ _ _ (length_sprite_le hn) s.fb).1 px py

theorem pixel_afterDraw_of_covers (hn : n ≤ 15) {px : Fin 64} {py : Fin 32} (h : SpriteCovers s x y n px py) :
    (s.afterDraw x y n).pixel px py = !s.pixel px py := by
  rw [pixel_afterDraw hn, decide_eq_true h, Bool.xor_true]

theorem pixel_afterDraw_of_not_covers (hn : n ≤ 15) {px : Fin 64} {py : Fin 32} (h : ¬ SpriteCovers s x y n px py) :
    (s.afterDraw x y n).pixel px py = s.pixel px py := by
  rw [pixel_afterDraw hn, decide_eq_false h, Bool.xor_false]

/-- The collision of a sprite is that a pixel it covers was lit (R251). -/
theorem collision_iff_exists_lit (hn : n ≤ 15) :
    (s.drawSprite x y n).2 = true ↔ ∃ px py, SpriteCovers s x y n px py ∧ s.pixel px py = true := by
  refine (drawRows_spec _ _ _ (length_sprite_le hn) s.fb).2.trans ⟨?_, ?_⟩
  · rintro ⟨p, hp, hlit⟩
    obtain ⟨px, py, hcell⟩ := exists_pixel_sameCell p
    exact ⟨px, py, exists_spritePoint_iff_spriteCovers.mp ⟨p, hp, hcell⟩,
      (s.pixel_eq px py).trans ((pixelAt_congr s.fb hcell).symm.trans hlit)⟩
  · rintro ⟨px, py, hcovers, hlit⟩
    obtain ⟨p, hp, hcell⟩ := exists_spritePoint_iff_spriteCovers.mpr hcovers
    exact ⟨p, hp, (pixelAt_congr s.fb hcell).trans ((s.pixel_eq px py).symm.trans hlit)⟩

theorem reg_vf_afterDraw (s : State) (x y : RegIdx) (n : Nat) :
    (s.afterDraw x y n).reg vf = collisionFlag (s.drawSprite x y n).2 := by
  rw [State.afterDraw, State.reg_setReg, if_pos rfl]

theorem collisionFlag_eq_one {hit : Bool} : collisionFlag hit = 1 ↔ hit = true := by cases hit <;> decide

theorem reg_vf_afterDraw_eq_one (hn : n ≤ 15) :
    (s.afterDraw x y n).reg vf = 1 ↔ ∃ px py, SpriteCovers s x y n px py ∧ s.pixel px py = true := by
  rw [reg_vf_afterDraw, collisionFlag_eq_one, collision_iff_exists_lit hn]

theorem reg_vf_afterDraw_eq_zero (hn : n ≤ 15)
    (h : ¬ ∃ px py, SpriteCovers s x y n px py ∧ s.pixel px py = true) : (s.afterDraw x y n).reg vf = 0 := by
  rw [reg_vf_afterDraw, Bool.eq_false_iff.mpr (mt (collision_iff_exists_lit hn).mp h)]
  rfl

/-- Drawing writes no register but `VF`. -/
theorem sameRegsBut_afterDraw (s : State) (x y : RegIdx) (n : Nat) :
    SameRegsBut (· = vf) s (s.afterDraw x y n) := by
  intro j hj
  rw [State.afterDraw, State.reg_setReg, if_neg hj]
  rfl

end

/-- Settles O41: a sprite that does not fault flips what it covers and writes the collision to `VF`. -/
theorem drawFlipsSpriteAndReportsCollision : Obligations.DrawFlipsSpriteAndReportsCollision := fun s x y n hn hfit =>
  ⟨s.afterDraw x y n, exec_drw_of_spriteInMemory hfit, fun _ _ => pixel_afterDraw_of_covers hn,
    fun _ _ => pixel_afterDraw_of_not_covers hn, (reg_vf_afterDraw_eq_one hn).mpr, reg_vf_afterDraw_eq_zero hn,
    sameRegsBut_afterDraw s x y n, rfl, screenAndRegistersOnly_withScreenRegs s _ _⟩

/-! ### Drawing twice (R253) -/

section
variable {s : State} {x y : RegIdx} {n : Nat}

/-- With `X` and `Y` not 15, a draw moves none of what the sprite depends on: `I`, memory, `VX` and `VY`. -/
theorem spriteCovers_afterDraw (hx : x ≠ vf) (hy : y ≠ vf) {px : Fin 64} {py : Fin 32} :
    SpriteCovers (s.afterDraw x y n) x y n px py ↔ SpriteCovers s x y n px py := by
  rw [SpriteCovers, sameRegsBut_afterDraw s x y n x hx, sameRegsBut_afterDraw s x y n y hy]
  rfl

/-- A covered pixel flips twice, any other stays twice. -/
theorem sameScreen_afterDraw_afterDraw (hn : n ≤ 15) (hx : x ≠ vf) (hy : y ≠ vf) :
    SameScreen s ((s.afterDraw x y n).afterDraw x y n) := by
  intro px py
  rw [pixel_afterDraw hn, pixel_afterDraw hn, decide_eq_decide.mpr (spriteCovers_afterDraw hx hy), Bool.xor_assoc,
    Bool.xor_self, Bool.xor_false]

/-- The covered pixels that are lit after a draw are those that the draw turned on. -/
theorem covers_and_lit_afterDraw_iff (hn : n ≤ 15) {px : Fin 64} {py : Fin 32} :
    SpriteCovers s x y n px py ∧ (s.afterDraw x y n).pixel px py = true ↔
      s.pixel px py = false ∧ (s.afterDraw x y n).pixel px py = true := by
  by_cases h : SpriteCovers s x y n px py
  · simp [h, pixel_afterDraw_of_covers hn h]
  · simp [h, pixel_afterDraw_of_not_covers hn h]

end

/-- Settles O42: the second draw covers the same pixels as the first, so it flips them back and meets lit exactly those
that the first turned on. -/
theorem drawTwiceRestoresScreen : Obligations.DrawTwiceRestoresScreen := by
  intro s x y n hn hx hy hfit
  refine ⟨_, _, exec_drw_of_spriteInMemory hfit, exec_drw_of_spriteInMemory hfit,
    fb_eq_of_sameScreen (sameScreen_afterDraw_afterDraw hn hx hy), ?collision⟩
  case collision =>
    rw [reg_vf_afterDraw_eq_one hn]
    exact exists_congr fun px => exists_congr fun py =>
      (and_congr_left' (spriteCovers_afterDraw hx hy)).trans (covers_and_lit_afterDraw_iff hn)

end Sys2Proof.Machine
end

section
/-! The latch, the Tick, and what `Reset(P)` refuses or leaves to fault: the instructions without a fault of their own
(60_exceptions.md R270, R274), the timers counting down (R276; 70_reset_and_hazards.md R306), the oversized ROM and the
empty one (R302, R303). -/

namespace Sys2Proof.Machine

open Sys2Proof.Claims

/-! ### The latch (R270, R274) -/

/-- Settles O46: outside the six instructions with a fault of their own, each meaning is made of operations that leave the
latch alone, whatever case within it is taken. -/
theorem otherInstructionsNeverFault : Obligations.OtherInstructionsNeverFault := by
  intro i s t hi h
  cases i with
  | ret | call | drw | ldB | ldMemVx | ldVxMem => exact absurd trivial hi
  | seImm | sneImm | seReg | sneReg | skp | sknp => cases h; exact ⟨State.skipIf_halted _ _, State.skipIf_fault _ _⟩
  | addI x => cases h; split <;> exact ⟨rfl, rfl⟩
  | ldVxK x => obtain rfl | ⟨v, rfl⟩ := exec_ldVxK_cases h <;> exact ⟨rfl, rfl⟩
  | _ => cases h; exact ⟨rfl, rfl⟩

/-! ### The Tick (R276) -/

/-- A tick writes timers alone, in a running core and in a halted one. -/
theorem timersOnly_tick (s : State) : TimersOnly s s.tick where
  regs := fun j => by rw [State.reg, State.tick_v, State.reg]
  i := State.tick_i s
  stack := State.tick_stack s
  mem := fun a => by rw [State.tick_mem]
  screen := fun x y => by rw [State.pixel, State.tick_fb, State.pixel]
  keyWait := ⟨State.tick_kwActive s, State.tick_kwPrev s⟩
  control := ⟨State.tick_cfg s, State.tick_halted s, State.tick_fault s, State.tick_env s⟩

theorem toNat_dt_tick {s : State} (hrun : s.halted = false) : s.tick.dt.toNat = s.dt.toNat - 1 := by
  rw [tick_of_running hrun]
  exact toNat_countDown s.dt

theorem toNat_st_tick {s : State} (hrun : s.halted = false) : s.tick.st.toNat = s.st.toNat - 1 := by
  rw [tick_of_running hrun]
  exact toNat_countDown s.st

/-- Settles O10: the event is a tick of the state with the event taken. -/
theorem tickCountsDown : Obligations.TickCountsDown := fun s hrun hevent =>
  ⟨s.takeEvent.tick, step_of_tick hevent, toNat_dt_tick hrun, toNat_st_tick hrun, State.tick_pc s.takeEvent,
    timersOnly_tick s.takeEvent⟩

/-- In a running core `n` ticks take the delay timer down by `n`, to 0 at least. -/
theorem toNat_dt_ticks {s : State} (hrun : s.halted = false) (n : Nat) :
    (ticks n s).dt.toNat = s.dt.toNat - n := by
  induction n generalizing s with
  | zero => rfl
  | succ n ih =>
    have hrun' : s.tick.halted = false := (State.tick_halted s).trans hrun
    calc (ticks n s.tick).dt.toNat
      _ = s.tick.dt.toNat - n := ih hrun'
      _ = s.dt.toNat - (n + 1) := by rw [toNat_dt_tick hrun]; omega

/-- Settles O37: FX15 leaves the core running with `DT = V[X]`, and FX07 reads what the ticks have left of it. -/
theorem delayTimerReadsRemainder : Obligations.DelayTimerReadsRemainder := by
  intro s x y n hrun
  obtain ⟨-, ⟨t, hset, hdt, -, -, hframe⟩, -⟩ := timerTransfers s x
  obtain ⟨⟨u, hget, hread, -⟩, -⟩ := timerTransfers (ticks n t) y
  refine ⟨t, u, hset, hget, ?_⟩
  rw [hread, toNat_dt_ticks (hframe.control.halted.trans hrun), hdt]

/-! ### The ROM of `Reset(P)` (70_reset_and_hazards.md R302, R303) -/

/-- Settles O12: the first check of the construction. -/
theorem oversizedRomIsRejected : Obligations.OversizedRomIsRejected := by
  intro s p hevent hrom
  rw [step_of_reset hevent]
  exact if_pos hrom

/-- Without a program every byte above the glyphs reads as 0 (10_state.md R42). -/
theorem read_initialMemory_of_no_rom {p : Config} (hrom : p.rom = []) {a : Nat} (ha : 80 ≤ a) :
    (initialMemory p).read a = 0 := by
  have hlen : p.rom.length = 0 := by rw [hrom, List.length_nil]
  rw [read_initialMemory p (by omega), if_neg (by omega), if_neg (by omega)]

/-- Without a program the word at the entry point is 0x0000 (R303). -/
theorem fetch_built_of_no_rom {p : Config} (hrom : p.rom = []) (e : Env) : fetch (built p e) = .ok 0x0000 := by
  have hhi : (initialMemory p).read 0x200 = 0 := read_initialMemory_of_no_rom hrom (by omega)
  have hlo : (initialMemory p).read 0x201 = 0 := read_initialMemory_of_no_rom hrom (by omega)
  exact fetch_of_bytes (s := built p e) (show entryPoint.toNat < 0xFFF by decide) hhi hlo

/-- Settles O14: what was constructed is the built core, which fetches 0x0000, and no row decodes that word. -/
theorem emptyRomFaultsAtEntry : Obligations.EmptyRomFaultsAtEntry := by
  intro p e t k r hrom hbuilt hevent
  obtain ⟨-, rfl⟩ := construct_eq_next.mp hbuilt
  have hfetch : fetch (built p e).takeEvent = .ok 0x0000 := fetch_built_of_no_rom hrom e
  have hdecode : decode 0x0000 = .error (.unsupported 0x0000) := rfl
  rw [step_of_step hevent]
  exact stepEvent_of_unsupported k r rfl hfetch hdecode

end Sys2Proof.Machine
end
